-- ==== Sys2Proof/Word.lean ====
section
/-! DEFINITION. The word types of FISC: the sizes of `00_scope.md` R7 as bit-vector widths, and text as a list of
characters (source lines, tokens and object-file lines of `20_memory.md` and `30_encoding.md`). -/

namespace Sys2Proof

/-- An instruction word, and the contents of a general register: 8 bits, unsigned (R7, R10, R30). -/
abbrev Word := BitVec 8

/-- One of the four 2-bit fields of an instruction word (R50). -/
abbrev Field := BitVec 2

/-- An instruction address as a word or a label names it: 6 bits, 0 to 63 (R7, R55). -/
abbrev Addr := BitVec 6

/-- The program counter: 7 bits, so that it can hold 64 (R14, parameter `PC_WIDTH`). -/
abbrev PcWord := BitVec 7

/-- Text: a source line, a token, a label name, a line of an object file. -/
abbrev Text := List Char

end Sys2Proof
end

