-- ==== Sys2Proof/Config.lean ====
section
/-! DEFINITION. What an implementation of FISC fixes (`00_scope.md` R7 and R8). The sizes are not configurable (R7).
The spec leaves no value free: every point its source leaves open is decided in `92_eei_decisions.md`, so no opaque
constant stands here. The other parameters of R8 stand beside the functions that read them: `OPCODE_CODE`, `REG_CODE`
and `NOT_F3_POLICY` in Decode.lean, `SEP` and `BLANK` in Machine/Lexer.lean, `NOT_ARITY` in Machine/Encoder.lean,
`HEX_LOWER_OK` in Machine/ObjectFile.lean, `PC_WIDTH` in Word.lean; `BUDGET` is an argument of the run
(Machine/Run.lean), `LEN` and `IMEM` are what the loader sets (Machine/State.lean). -/

namespace Sys2Proof

/-- Instruction memory holds at most 64 words, at addresses 0 to 63 (R7, R30). -/
def Config.imemWords : Nat := 64

/-- The cycle count the simulator's command line takes when none is given (R125). The engine itself has no
default budget (`92_eei_decisions.md` D16): nothing in the machine reads this. -/
def Config.cliBudget : Nat := 20

end Sys2Proof
end

