-- ==== Sys2Proof/Syntax.lean ====
section
/-! DEFINITION. The FISC instructions, the names they are written with, and the two forms the decoder's answer takes
(`30_encoding.md` sections 1 and 3). -/

namespace Sys2Proof

/-- The four general registers (R10). Every 2-bit field names one of them (R11, R54). -/
inductive Reg where
  | r0
  | r1
  | r2
  | r3
  deriving DecidableEq, Repr

/-- The four mnemonics (R3). -/
inductive Mnemonic where
  | add
  | and
  | not
  | bnz
  deriving DecidableEq, Repr

/-- An instruction: one constructor for each row of the opcode table, its operands in source order (R76). The unused
field f3 of `not` is no operand (R60, R63). -/
inductive Instr where
  /-- `add Rn Rm Rd` (R100). -/
  | add (rn rm rd : Reg)
  /-- `and Rn Rm Rd` (R101). -/
  | and (rn rm rd : Reg)
  /-- `not Rd Rn` (R102). -/
  | not (rd rn : Reg)
  /-- `bnz label`, with the 6-bit absolute address the label is bound to (R110). -/
  | bnz (addr : Addr)
  deriving DecidableEq, Repr

/-- One operand of a decoded instruction record (R60): a register name, or the numeric target of `bnz`. -/
inductive Operand where
  | reg (r : Reg)
  | target (addr : Addr)
  deriving DecidableEq, Repr

/-- The decoded instruction record of DEC: a mnemonic and its operand list (R60). -/
structure Record where
  mnemonic : Mnemonic
  operands : List Operand
  deriving DecidableEq, Repr

/-- The function an arithmetic instruction selects (R61). -/
inductive AluFn where
  | add
  | and
  | not
  deriving DecidableEq, Repr

/-- The control outputs DECX gives the engine (R61): register indices, not names. `rm` is absent where the rule
says it is unused. -/
inductive Control where
  | alu (fn : AluFn) (rn : Field) (rm : Option Field) (rd : Field)
  | branch (addr : Addr)
  deriving DecidableEq, Repr

/-- The four fields of an instruction word in their order: the opcode, f1, f2, f3 (R50). -/
structure Fields where
  op : Field
  f1 : Field
  f2 : Field
  f3 : Field
  deriving DecidableEq, Repr

/-- The mnemonic of an instruction. -/
def Instr.mnemonic : Instr → Mnemonic
  | .add _ _ _ => .add
  | .and _ _ _ => .and
  | .not _ _ => .not
  | .bnz _ => .bnz

/-- The record DEC gives for an instruction: its operands in source order (R60, R76). -/
def Instr.record : Instr → Record
  | .add rn rm rd => ⟨.add, [.reg rn, .reg rm, .reg rd]⟩
  | .and rn rm rd => ⟨.and, [.reg rn, .reg rm, .reg rd]⟩
  | .not rd rn => ⟨.not, [.reg rd, .reg rn]⟩
  | .bnz addr => ⟨.bnz, [.target addr]⟩

end Sys2Proof
end

