-- ==== Sys2Proof/WellFormed.lean ====
section
/-! DEFINITION. What makes a program well formed. A single instruction needs no check: every term of `Instr` is an
instruction the machine runs, since every register field and every 6-bit target is valid (R54, R62, R64). What the
encoder side checks is a whole program: it fits instruction memory (R30, R81), and each `bnz` goes to an instruction of
the same program (R113). A program that fails the second check still runs (R113); it only cannot come out of the
assembler. -/

namespace Sys2Proof

/-- The target of a `bnz` lies below `n`; the other instructions have no target (R113). -/
def Instr.targetBelow (n : Nat) : Instr → Bool
  | .add _ _ _ => true
  | .and _ _ _ => true
  | .not _ _ => true
  | .bnz addr => decide (addr.toNat < n)

/-- The program fits instruction memory (R30). -/
def Program.fits (p : List Instr) : Bool := decide (p.length ≤ Config.imemWords)

/-- Every `bnz` of the program goes to one of its own instructions (R113). -/
def Program.targetsInside (p : List Instr) : Bool := p.all (Instr.targetBelow p.length)

/-- A program as the assembler can produce it: it fits, and its branches stay inside (R81, R113). -/
def Program.wellFormed (p : List Instr) : Bool := Program.fits p && Program.targetsInside p

end Sys2Proof
end

