-- ==== Sys2Proof/Decode.lean ====
section
/-! DEFINITION. The instruction word: the code tables, PACK and UNPACK, the decoder in its three forms (instruction,
DEC, DECX) and the encoder of an instruction (`30_encoding.md` sections 1 to 4). -/

namespace Sys2Proof

/-! ## The code tables (parameters `OPCODE_CODE` and `REG_CODE`) -/

/-- The 2-bit code of each mnemonic (R53; the values are the spec's decision D1, log entry 1). -/
def opcodeCode : Mnemonic → Field
  | .add => 0b00#2
  | .and => 0b01#2
  | .not => 0b10#2
  | .bnz => 0b11#2

/-- The mnemonic whose code a field holds: the opcode table read backwards (R60). -/
def mnemonicOf (c : Field) : Mnemonic :=
  if c = opcodeCode .add then .add
  else if c = opcodeCode .and then .and
  else if c = opcodeCode .not then .not
  else .bnz

/-- The 2-bit code of each register, `rN` = `N` (R11, R54; the values are the spec's decision D2, log entry 2). -/
def regCode : Reg → Field
  | .r0 => 0b00#2
  | .r1 => 0b01#2
  | .r2 => 0b10#2
  | .r3 => 0b11#2

/-- The register whose code a field holds; every field names one (R54). -/
def regOf (c : Field) : Reg :=
  if c = regCode .r0 then .r0
  else if c = regCode .r1 then .r1
  else if c = regCode .r2 then .r2
  else .r3

/-! ## PACK and UNPACK -/

/-- PACK: the word `opcode ‖ f1 ‖ f2 ‖ f3`, the opcode most significant (R51, R56). -/
def pack (f : Fields) : Word := f.op ++ f.f1 ++ f.f2 ++ f.f3

/-- UNPACK: the fields at bits 7:6, 5:4, 3:2 and 1:0 (R51, R57). -/
def unpack (w : Word) : Fields where
  op := w.extractLsb' 6 2
  f1 := w.extractLsb' 4 2
  f2 := w.extractLsb' 2 2
  f3 := w.extractLsb' 0 2

/-- The 6-bit number in f1 ‖ f2 ‖ f3: the target of a `bnz` (R52, R55). -/
def Fields.target (f : Fields) : Addr := f.f1 ++ f.f2 ++ f.f3

/-! ## The decoder -/

/-- The instruction a word holds. Total: each of the 256 words is an instruction (R62). The destination is f3 for
`add` and `and` and f1 for `not` (R52); f3 of a `not` is ignored whatever it holds (R63, decision D5, log entry 3). -/
def decodeWord (w : Word) : Instr :=
  let f := unpack w
  match mnemonicOf f.op with
  | .add => .add (regOf f.f1) (regOf f.f2) (regOf f.f3)
  | .and => .and (regOf f.f1) (regOf f.f2) (regOf f.f3)
  | .not => .not (regOf f.f1) (regOf f.f2)
  | .bnz => .bnz f.target

/-- Why a sequence of words is not an instruction. -/
inductive DecodeError where
  /-- There is no word to decode. Raised by `decode` on the empty sequence only; no word is undecodable (R62).
  Safe: nothing runs. -/
  | noWord
  deriving DecidableEq, Repr

/-- Reads one instruction from the front of a sequence of words and leaves the rest: a decoder always consumes exactly
one word (R50). -/
def decode : List Word → Except DecodeError (Instr × List Word)
  | [] => .error .noWord
  | w :: rest => .ok (decodeWord w, rest)

/-- DEC: the mnemonic of the opcode field and the operands in source order, field by field (R60). -/
def decRecord (w : Word) : Record :=
  let f := unpack w
  match mnemonicOf f.op with
  | .add => ⟨.add, [.reg (regOf f.f1), .reg (regOf f.f2), .reg (regOf f.f3)]⟩
  | .and => ⟨.and, [.reg (regOf f.f1), .reg (regOf f.f2), .reg (regOf f.f3)]⟩
  | .not => ⟨.not, [.reg (regOf f.f1), .reg (regOf f.f2)]⟩
  | .bnz => ⟨.bnz, [.target f.target]⟩

/-- DECX: the control outputs, as register indices (R61). -/
def decControl (w : Word) : Control :=
  let f := unpack w
  match mnemonicOf f.op with
  | .add => .alu .add f.f1 (some f.f2) f.f3
  | .and => .alu .and f.f1 (some f.f2) f.f3
  | .not => .alu .not f.f2 none f.f1
  | .bnz => .branch (w.extractLsb' 0 6)

/-- The instruction whose word is the number `w` of `nbits` bits, as the opcode table numbers bits: the one word holds
bits 7:0, and every bit above `nbits` is 0. -/
def decodeTableWord (nbits w : Nat) : Option Instr :=
  match decode [BitVec.ofNat 8 (w % 2 ^ nbits)] with
  | .ok (i, _) => some i
  | .error _ => none

/-! ## The encoder -/

/-- The word of an instruction, field by field (R72): operand `k` goes to field `k`, and f3 of `not` is `00`. -/
def encodeWord : Instr → Word
  | .add rn rm rd => pack ⟨opcodeCode .add, regCode rn, regCode rm, regCode rd⟩
  | .and rn rm rd => pack ⟨opcodeCode .and, regCode rn, regCode rm, regCode rd⟩
  | .not rd rn => pack ⟨opcodeCode .not, regCode rd, regCode rn, 0b00#2⟩
  | .bnz addr => pack ⟨opcodeCode .bnz, addr.extractLsb' 4 2, addr.extractLsb' 2 2, addr.extractLsb' 0 2⟩

/-- The words of an instruction: exactly one (R50). -/
def encode (i : Instr) : List Word := [encodeWord i]

/-- The control outputs an instruction stands for (R61). -/
def Instr.control : Instr → Control
  | .add rn rm rd => .alu .add (regCode rn) (some (regCode rm)) (regCode rd)
  | .and rn rm rd => .alu .and (regCode rn) (some (regCode rm)) (regCode rd)
  | .not rd rn => .alu .not (regCode rn) none (regCode rd)
  | .bnz addr => .branch addr

end Sys2Proof
end

