-- ==== Sys2Proof/Machine/State.lean ====
section
/-! DEFINITION. The machine state, its value after reset, and the reasons a step can end without a next state
(`10_state.md`; `20_memory.md` R30, R31; `42_fetch_execute_cycle.md` R121). -/

namespace Sys2Proof.Machine

/-- Why the engine takes no further step. The hardware has no run-time fault of any kind (R140): both constructors say
that there is no next state to give, not that an instruction failed. -/
inductive Fault where
  /-- The machine is Halted: `pc >= LEN`, so there is no step (R21, R121). Raised by the fetch only. It is the end of
  a run (R127), not an error. Safe: no next state is claimed. -/
  | halted
  /-- `pc` is below `LEN` but instruction memory lists no word there. Raised by the fetch only, and only in a state no
  load produces (R31, R34: the precondition always holds). Safe: no next state is claimed. -/
  | fetchUnloaded
  deriving DecidableEq, Repr

/-- Why an instruction has no meaning in the model. None of the four is refused (R132). -/
inductive Refusal where
  /-- The instruction with this mnemonic has no meaning yet. No arm of `exec` answers it. Safe: no next state is
  claimed. -/
  | notModelled (mnemonic : String)
  deriving DecidableEq, Repr

/-- The four 8-bit registers, independent, none hard-wired, no banks (R10). -/
structure RegFile where
  r0 : Word
  r1 : Word
  r2 : Word
  r3 : Word
  deriving DecidableEq, Repr

/-- Instruction memory: the loaded words by address, addresses strictly rising. An address that is not listed holds
nothing (R31: "Addresses `LEN` to 63 hold nothing"). -/
abbrev Memory := List Host.Cell

/-- The state of the engine together with the program loaded into it. The first four fields are the whole mutable
state (R20); `imem` and `len` are what the loader set, and no step changes them (R22, R33; log entry 7). -/
structure State where
  /-- The address of the next instruction to execute (R13), 0 to 64 (R14). -/
  pc : PcWord
  /-- The general registers (R10). -/
  x : RegFile
  /-- The zero flag (R16). -/
  z : Bool
  /-- The branch-origin marker: the address of the `bnz` taken in the step just executed, if one was (R18). -/
  bo : Option Addr
  /-- `IMEM`, the loaded words (R30, R31). -/
  imem : Memory
  /-- `LEN`, the number of loaded words, 0 to 64 (R31). -/
  len : Nat
  deriving DecidableEq, Repr

/-- Reset (R23, R170): `pc`, the registers and the flag are 0, the marker is cleared. No program is loaded, so `LEN`
is 0 and the machine is Halted (R126); a program comes in from outside, by `State.loaded` (log entry 8). -/
def State.reset : State where
  pc := 0
  x := ⟨0, 0, 0, 0⟩
  z := false
  bo := none
  imem := []
  len := 0

end Sys2Proof.Machine
end

