-- ==== Sys2Proof/Machine/Ops.lean ====
section
/-! DEFINITION. The named operations over registers, instruction memory, the program counter and the branch-origin
marker. There is no operation that takes an exception or returns from one, because the machine has no exception,
interrupt or trap of any kind: no state is saved and no vector is consulted (R140, R141, R146). -/

namespace Sys2Proof.Machine

/-! ## General registers -/

/-- `x[r]` of a register file (R10). -/
def RegFile.get (x : RegFile) : Reg → Word
  | .r0 => x.r0
  | .r1 => x.r1
  | .r2 => x.r2
  | .r3 => x.r3

/-- The register file with `x[r]` replaced (R10). -/
def RegFile.set (x : RegFile) (r : Reg) (v : Word) : RegFile :=
  match r with
  | .r0 => { x with r0 := v }
  | .r1 => { x with r1 := v }
  | .r2 => { x with r2 := v }
  | .r3 => { x with r3 := v }

/-- A read of general register `r` (R10). -/
def readReg (s : State) (r : Reg) : Word := s.x.get r

/-- `x[r] <- v` (R10). -/
def writeReg (s : State) (r : Reg) (v : Word) : State := { s with x := s.x.set r v }

/-! ## Instruction memory -/

/-- What memory holds at an address; an address that is not listed holds nothing (R31). -/
def Memory.read : Memory → Nat → Option Word
  | [], _ => none
  | (k, b) :: m, a => if k = a then some b else Memory.read m a

/-- Memory with the word `b` placed at `a`. Only the loader's side uses it: the machine has no store (R32, R33). -/
def Memory.write : Memory → Nat → Word → Memory
  | [], a, b => [(a, b)]
  | (k, c) :: m, a, b =>
    if a < k then (a, b) :: (k, c) :: m
    else if a = k then (a, b) :: m
    else (k, c) :: Memory.write m a b

/-- Every listed address lies above `a`. -/
def Memory.above (a : Nat) (m : Memory) : Bool := m.all fun c => decide (a < c.1)

/-- The canonical form: addresses strictly rising. No entry can equal what an unlisted address reads as, since that is
no word at all. -/
def Memory.wf : Memory → Bool
  | [] => true
  | (k, _) :: m => Memory.above k m && Memory.wf m

/-- The words of a list at consecutive addresses from `base` on (R31: "in address order"). -/
def Memory.ofWords (base : Nat) : List Word → Memory
  | [] => []
  | w :: ws => (base, w) :: Memory.ofWords (base + 1) ws

/-! ## The program counter and the marker -/

/-- Halted exactly when `pc >= LEN` (R21). -/
def State.halted (s : State) : Bool := decide (s.len ≤ s.pc.toNat)

/-- The fetch of a step: the word at `pc` of a Running machine (R34). -/
def fetch (s : State) : Except Fault Word :=
  if s.halted then .error .halted
  else match Memory.read s.imem s.pc.toNat with
    | some w => .ok w
    | none => .error .fetchUnloaded

/-- `pc <- pc + 1` and `bo <- none`: how every instruction but a taken `bnz` ends (R15, R19; the marker by decision
D6, log entry 6). No wrap can occur: a step is taken at 63 at most, and 63 + 1 = 64 fits 7 bits (R14, log entry 4). -/
def advance (s : State) : State := { s with pc := s.pc + 1, bo := none }

/-- `bo <- some(pc)` and `pc <- addr`, the target zero-extended: a taken `bnz` (R110, R111, R114). -/
def jump (s : State) (addr : Addr) : State :=
  { s with pc := addr.setWidth 7, bo := some (s.pc.setWidth 6) }

/-! ## Loading -/

/-- The state a run starts from, with the words of a program loaded: reset (R23) with `IMEM[k]` the `k`-th word and
`LEN` their number (R31, R49). -/
def State.loaded (ws : List Word) : State :=
  { State.reset with imem := Memory.ofWords 0 ws, len := ws.length }

end Sys2Proof.Machine
end

