-- ==== Sys2Proof/Machine/Operands.lean ====
section
/-! DEFINITION. The operand forms. FISC has two: a register named by a field, and the absolute 6-bit target of `bnz`
(`30_encoding.md` R52, R54, R55). There is no immediate, no memory operand and no indirect form (R84, R111). -/

namespace Sys2Proof.Machine

/-- The value of a source register operand, read before anything is written (R104). -/
def source (s : State) (r : Reg) : Word := readReg s r

/-- The register an instruction writes: Rd of `add`, `and` and `not`; `bnz` writes none (R12). -/
def destReg : Instr → Option Reg
  | .add _ _ rd => some rd
  | .and _ _ rd => some rd
  | .not rd _ => some rd
  | .bnz _ => none

end Sys2Proof.Machine
end

