-- ==== Sys2Proof/Machine/Flags.lean ====
section
/-! DEFINITION. The one flag computation: the zero flag from the 8-bit result (`40_alu.md` R103). There is no carry,
overflow, negative or parity flag (R16, R20). -/

namespace Sys2Proof.Machine

/-- `Z` after a result `v`: 1 if and only if the value written is 0 (R103). -/
def zeroFlag (v : Word) : Bool := decide (v = 0)

/-- `Z` written from the result `v` (R103). -/
def setZero (s : State) (v : Word) : State := { s with z := zeroFlag v }

end Sys2Proof.Machine
end

