-- ==== Sys2Proof/Machine/Alu.lean ====
section
/-! DEFINITION. The arithmetic and logic instructions `add`, `and` and `not` (`40_alu.md` R100 to R105). -/

namespace Sys2Proof.Machine

/-- How the three instructions end: the result goes to Rd, `Z` follows from it, the marker is cleared and `pc` moves on
by one (R100 to R102, R103, R105). -/
def aluDone (s : State) (rd : Reg) (v : Word) : State := advance (setZero (writeReg s rd v) v)

/-- `add Rn Rm Rd`: `Rd <- (Rn + Rm) mod 256`, the carry out discarded (R100). -/
def execAdd (rn rm rd : Reg) (s : State) : Host.Outcome State Fault Refusal :=
  .next (aluDone s rd (source s rn + source s rm))

/-- `and Rn Rm Rd`: `Rd <- Rn AND Rm`, bitwise (R101). -/
def execAnd (rn rm rd : Reg) (s : State) : Host.Outcome State Fault Refusal :=
  .next (aluDone s rd (source s rn &&& source s rm))

/-- `not Rd Rn`: `Rd <- 255 - Rn`, every bit inverted (R102). -/
def execNot (rd rn : Reg) (s : State) : Host.Outcome State Fault Refusal :=
  .next (aluDone s rd (~~~ source s rn))

end Sys2Proof.Machine
end

