-- ==== Sys2Proof/Machine/Branch.lean ====
section
/-! DEFINITION. The control transfer `bnz` (`41_branch.md` R110 to R114). -/

namespace Sys2Proof.Machine

/-- `bnz addr`: fall through if `Z` is set, else jump to the absolute address (R110). The target is not checked against
`LEN` (R113). `Z` and the registers are not written. -/
def execBnz (addr : Addr) (s : State) : Host.Outcome State Fault Refusal :=
  .next (if s.z then advance s else jump s addr)

end Sys2Proof.Machine
end

