-- ==== Sys2Proof/Machine/Dispatch.lean ====
section
/-! DEFINITION. The dispatch: one arm per instruction. -/

namespace Sys2Proof.Machine

/-- The meaning of an instruction, executed on a state (R120). -/
def exec (i : Instr) (s : State) : Host.Outcome State Fault Refusal :=
  match i with
  | .add rn rm rd => Sys2Proof.Machine.execAdd rn rm rd s
  | .and rn rm rd => Sys2Proof.Machine.execAnd rn rm rd s
  | .not rd rn => Sys2Proof.Machine.execNot rd rn s
  | .bnz addr => Sys2Proof.Machine.execBnz addr s

end Sys2Proof.Machine
end

