-- ==== Sys2Proof/Machine/Step.lean ====
section
/-! DEFINITION. One step of the engine (`42_fetch_execute_cycle.md` R120), and the placing of one word where the next
step fetches. -/

namespace Sys2Proof.Machine

/-- Fetch, decode, execute (R120). A Halted machine has no step (R121): the fetch says so. -/
def step (s : State) : Host.Outcome State Fault Refusal :=
  match fetch s with
  | .error f => .fault f
  | .ok w => exec (decodeWord w) s

/-- The state with the word `w` of `nbits` bits placed at `pc`, and `LEN` raised to reach past it where it does not yet,
so that the next step fetches that word. It stands for the load from outside (R49; log entry 8). -/
def State.withFetchWord (s : State) (nbits w : Nat) : State :=
  { s with
    imem := Memory.write s.imem s.pc.toNat (BitVec.ofNat 8 (w % 2 ^ nbits))
    len := max s.len (s.pc.toNat + 1) }

end Sys2Proof.Machine
end

