-- ==== Sys2Proof/Machine/Errors.lean ====
section
/-! DEFINITION. The fatal errors of assembly and load (`60_exceptions.md` R142 to R148). All of them come before the
first step of a run; none is a fault of the machine (R140). -/

namespace Sys2Proof.Machine

/-- The closed taxonomy of R142, each error with what it carries (R144). A `line` is the 1-based number of the source
line (decision D17); a token is carried as written, the name of a duplicate label normalised (decision D18). -/
inductive ToolError where
  /-- Listed by the taxonomy, raised by nothing (R148). -/
  | lexError
  /-- Raised by pass 1 on a label bound a second time (R80). -/
  | duplicateLabel (name : Text) (line : Nat)
  /-- Raised by ENC on a `bnz` operand that is not in the label table (R71). -/
  | undefinedLabel (name : Text) (line : Nat)
  /-- Raised by pass 1 on a 65th accepted line (R81), by the object reader on a 65th body line (R47). -/
  | memoryOverflow
  /-- Raised by ENC on a wrong operand count (R69). -/
  | arityError (opcode : Mnemonic) (expected actual line : Nat)
  /-- Raised by ENC on a register operand that is not exactly `r0` to `r3` (R70). -/
  | invalidRegister (token : Text) (line : Nat)
  /-- Raised by ENC on an opcode token that is no mnemonic, or on none at all (R68). -/
  | unknownOpcode (token : Text) (line : Nat)
  /-- Raised by the object reader on a first line that is not the header (R45). -/
  | badHeader (actualLine : Text)
  /-- Raised by the object reader on a body line that is not two hexadecimal digits (R46). -/
  | malformedWord (line : Text)
  /-- Raised where a file cannot be opened, read or written (R44, R145). -/
  | ioError
  deriving DecidableEq, Repr

end Sys2Proof.Machine
end

