-- ==== Sys2Proof/Machine/Lexer.lean ====
section
/-! DEFINITION. The lexer's pure functions (`30_encoding.md` R67, R76 to R79). -/

namespace Sys2Proof.Machine

/-- `SEP`, the separator the assembler splits a line at: the space (R77, decision D11). -/
def separator : Char := ' '

/-- `BLANK`: the space and the horizontal tab (R78, decision D11). -/
def isBlankChar (c : Char) : Bool := c == ' ' || c == '\t'

/-- The character that starts a comment (R77). -/
def commentChar : Char := ';'

/-- The canonical form of a name: ASCII upper case becomes lower case, all else is unchanged (R67, decision D18). -/
def lower (t : Text) : Text := t.map Char.toLower

/-- The part of a line before its first `;` (R77). -/
def stripComment (line : Text) : Text := line.takeWhile fun c => c != commentChar

/-- The pieces of a line between separators, empty ones included (R77). -/
def pieces (sep : Char) : Text → List Text
  | [] => [[]]
  | c :: cs =>
    if c = sep then [] :: pieces sep cs
    else match pieces sep cs with
      | [] => [[c]]
      | p :: ps => (c :: p) :: ps

/-- `split(line, separator)`: cut at the first `;`, cut at every separator, drop the empty pieces (R77). -/
def split (line : Text) (sep : Char) : List Text :=
  (pieces sep (stripComment line)).filter fun p => !p.isEmpty

/-- `isLabel(token)`: not empty and ends with `:` (R78). -/
def isLabel (token : Text) : Bool := token.getLast? == some ':'

/-- `isComment(line)`: the first character that is not blank is `;` (R78). -/
def isComment (line : Text) : Bool := (line.dropWhile isBlankChar).head? == some commentChar

/-- A blank line: every character is blank, or there is none (R78). -/
def isBlankLine (line : Text) : Bool := line.all isBlankChar

/-- The lines pass 1 skips: they consume no address (R79). -/
def skipped (line : Text) : Bool := isBlankLine line || isComment line

end Sys2Proof.Machine
end

