-- ==== Sys2Proof/Machine/Encoder.lean ====
section
/-! DEFINITION. ENC: one token line and the completed label table to one word or one error (`30_encoding.md` R66 to
R75). -/

namespace Sys2Proof

/-- A mnemonic as it is written, in canonical form (R53, R67). -/
def Mnemonic.text : Mnemonic → Text
  | .add => "add".toList
  | .and => "and".toList
  | .not => "not".toList
  | .bnz => "bnz".toList

/-- A register name as it is written, in canonical form (R10, R67). -/
def Reg.text : Reg → Text
  | .r0 => "r0".toList
  | .r1 => "r1".toList
  | .r2 => "r2".toList
  | .r3 => "r3".toList

end Sys2Proof

namespace Sys2Proof.Machine

/-- The label table: normalised name to address (R66, R80). -/
abbrev LabelTable := List (Text × Addr)

/-- The address a normalised name is bound to (R71). -/
def lookupLabel : LabelTable → Text → Option Addr
  | [], _ => none
  | (name, a) :: rest, t => if name = t then some a else lookupLabel rest t

/-- The mnemonic an opcode token names, in any case (R67, R68). -/
def mnemonicOfToken (t : Text) : Option Mnemonic :=
  if lower t = Mnemonic.text .add then some .add
  else if lower t = Mnemonic.text .and then some .and
  else if lower t = Mnemonic.text .not then some .not
  else if lower t = Mnemonic.text .bnz then some .bnz
  else none

/-- The register a token names, in any case and with no truncation (R67, R70). -/
def regOfToken (t : Text) : Option Reg :=
  if lower t = Reg.text .r0 then some .r0
  else if lower t = Reg.text .r1 then some .r1
  else if lower t = Reg.text .r2 then some .r2
  else if lower t = Reg.text .r3 then some .r3
  else none

/-- `NOT_ARITY`, the operand count of `not` in source text (R69, decision D4, log entry 5). -/
def notArity : Nat := 2

/-- The operand count each mnemonic requires (R69). -/
def arity : Mnemonic → Nat
  | .add => 3
  | .and => 3
  | .not => notArity
  | .bnz => 1

/-- A register operand, or `InvalidRegister` with the token as written (R70). -/
def resolveReg (t : Text) (line : Nat) : Except ToolError Reg :=
  match regOfToken t with
  | some r => .ok r
  | none => .error (.invalidRegister t line)

/-- A label operand, or `UndefinedLabel` with the name as written; the token is looked up whole (R71). -/
def resolveLabel (t : Text) (labels : LabelTable) (line : Nat) : Except ToolError Addr :=
  match lookupLabel labels (lower t) with
  | some a => .ok a
  | none => .error (.undefinedLabel t line)

/-- The operands of a mnemonic whose count is right, checked left to right (R70, R71, R72). Any other count is
`ArityError` (R69). -/
def resolveOperands (m : Mnemonic) (ops : List Text) (labels : LabelTable) (line : Nat) : Except ToolError Instr :=
  match m, ops with
  | .add, [t1, t2, t3] => do
    let rn ← resolveReg t1 line
    let rm ← resolveReg t2 line
    let rd ← resolveReg t3 line
    return .add rn rm rd
  | .and, [t1, t2, t3] => do
    let rn ← resolveReg t1 line
    let rm ← resolveReg t2 line
    let rd ← resolveReg t3 line
    return .and rn rm rd
  | .not, [t1, t2] => do
    let rd ← resolveReg t1 line
    let rn ← resolveReg t2 line
    return .not rd rn
  | .bnz, [t1] => do
    let a ← resolveLabel t1 labels line
    return .bnz a
  | m, ops => .error (.arityError m (arity m) ops.length line)

/-- One token line to an instruction: the opcode, then the operand count, then the operands (R68 to R73). A line with
no opcode token is `UnknownOpcode` with the empty token (decision D10). -/
def resolve (tokens : List Text) (labels : LabelTable) (line : Nat) : Except ToolError Instr :=
  match tokens with
  | [] => .error (.unknownOpcode [] line)
  | t :: ops =>
    match mnemonicOfToken t with
    | none => .error (.unknownOpcode t line)
    | some m => resolveOperands m ops labels line

/-- `ENC(tokens, labels, line)`: the word, or the first error (R66, R72, R73). -/
def enc (tokens : List Text) (labels : LabelTable) (line : Nat) : Except ToolError Word :=
  (resolve tokens labels line).map encodeWord

/-- An operand of a decoded record written as a token, a `bnz` target as the given label name (R65). -/
def operandToken (label : Text) : Operand → Text
  | .reg r => r.text
  | .target _ => label

/-- A decoded record written as a token line: the mnemonic, then the operands in list order (R65). -/
def recordTokens (r : Record) (label : Text) : List Text :=
  r.mnemonic.text :: r.operands.map (operandToken label)

end Sys2Proof.Machine
end

