-- ==== Sys2Proof/Machine/Assembler.lean ====
section
/-! DEFINITION. Pass 1, pass 2 and the assembler as one function (`30_encoding.md` R79 to R85). -/

namespace Sys2Proof.Machine

/-- An accepted source line: its address, its tokens without the label, its line number (R82, R85). -/
structure Accepted where
  addr : Nat
  tokens : List Text
  line : Nat
  deriving DecidableEq, Repr

/-- The label of a line, normalised, if its first token is one, and the tokens after it (R80). -/
def splitLabel : List Text → Option Text × List Text
  | [] => (none, [])
  | t :: ts => if isLabel t then (some (lower t.dropLast), ts) else (none, t :: ts)

/-- Pass 1 from a line number, a next address and the labels bound so far (R79 to R82, R85): skip blank and comment
lines; for every other line assign the next address (`MemoryOverflow` beyond 63), then bind its label
(`DuplicateLabel` if bound). -/
def pass1 : List Text → Nat → Nat → LabelTable → Except ToolError (LabelTable × List Accepted)
  | [], _, _, labels => .ok (labels, [])
  | l :: ls, line, next, labels =>
    if skipped l then pass1 ls (line + 1) next labels
    else if Config.imemWords ≤ next then .error .memoryOverflow
    else
      match splitLabel (split l separator) with
      | (none, toks) =>
        (pass1 ls (line + 1) (next + 1) labels).map fun r => (r.1, ⟨next, toks, line⟩ :: r.2)
      | (some name, toks) =>
        if (lookupLabel labels name).isSome then .error (.duplicateLabel name line)
        else
          (pass1 ls (line + 1) (next + 1) ((name, BitVec.ofNat 6 next) :: labels)).map
            fun r => (r.1, ⟨next, toks, line⟩ :: r.2)

/-- Pass 2: ENC on each accepted line in address order, stopping at the first error (R82). -/
def pass2 (labels : LabelTable) : List Accepted → Except ToolError (List Word)
  | [] => .ok []
  | a :: rest => do
    let w ← enc a.tokens labels a.line
    let ws ← pass2 labels rest
    return w :: ws

/-- `ASSEMBLE(lines)`: pass 1 over all lines, then pass 2; the `k`-th word is `IMEM[k]` (R85). -/
def assemble (lines : List Text) : Except ToolError (List Word) :=
  match pass1 lines 1 0 [] with
  | .error e => .error e
  | .ok (labels, accepted) => pass2 labels accepted

end Sys2Proof.Machine
end

