-- ==== Sys2Proof/Machine/ObjectFile.lean ====
section
/-! DEFINITION. The object file, its writer and its reader, and the load (`20_memory.md` R42 to R49). -/

namespace Sys2Proof.Machine

/-- The header line (R42). -/
def objectHeader : Text := "v2.0 raw".toList

/-- `HEX_LOWER_OK`: the reader accepts `a` to `f` (R46, decision D12). -/
def hexLowerOk : Bool := true

/-- The upper-case hexadecimal digit of a nibble (R43, R44). -/
def hexDigit (n : BitVec 4) : Char :=
  if n.toNat < 10 then Char.ofNat (48 + n.toNat) else Char.ofNat (55 + n.toNat)

/-- The nibble a hexadecimal digit stands for (R43, R46). -/
def hexValue (c : Char) : Option (BitVec 4) :=
  if 48 ≤ c.toNat ∧ c.toNat ≤ 57 then some (BitVec.ofNat 4 (c.toNat - 48))
  else if 65 ≤ c.toNat ∧ c.toNat ≤ 70 then some (BitVec.ofNat 4 (c.toNat - 55))
  else if hexLowerOk = true ∧ 97 ≤ c.toNat ∧ c.toNat ≤ 102 then some (BitVec.ofNat 4 (c.toNat - 87))
  else none

/-- A body line: the digit of `w[7:4]`, then the digit of `w[3:0]` (R43). -/
def spellWord (w : Word) : Text := [hexDigit (w.extractLsb' 4 4), hexDigit (w.extractLsb' 0 4)]

/-- The word a body line spells, if it is exactly two hexadecimal digits (R46). -/
def parseWord : Text → Option Word
  | [c1, c0] =>
    match hexValue c1, hexValue c0 with
    | some d1, some d0 => some (d1 ++ d0)
    | _, _ => none
  | _ => none

/-- The lines of a text: cut at each line feed, a final one starting no line (R48). -/
def cutLines : Text → List Text
  | [] => []
  | c :: cs =>
    if c = '\n' then [] :: cutLines cs
    else match cutLines cs with
      | [] => [[c]]
      | l :: ls => (c :: l) :: ls

/-- The text of lines, each ended by a line feed (R42; the last line feed is the model's choice, log entry 9). -/
def joinLines : List Text → Text
  | [] => []
  | l :: ls => l ++ '\n' :: joinLines ls

/-- ObjectWriter: the header, then one line a word in address order (R44). -/
def objectLines (ws : List Word) : List Text := objectHeader :: ws.map spellWord

/-- The object file's text (R42, R44). -/
def writeObject (ws : List Word) : Text := joinLines (objectLines ws)

/-- The body lines from the `n`-th on: at most 64 (R47), each one a word (R46), the first bad line reported (R145). -/
def readBody : Nat → List Text → Except ToolError (List Word)
  | _, [] => .ok []
  | n, l :: ls =>
    if Config.imemWords ≤ n then .error .memoryOverflow
    else
      match parseWord l with
      | none => .error (.malformedWord l)
      | some w => (readBody (n + 1) ls).map fun ws => w :: ws

/-- ObjectReader: the header must match exactly (R45), then the body; a file with no line is `BadHeader` with the empty
line (decision D14). -/
def readObject (file : Text) : Except ToolError (List Word) :=
  match cutLines file with
  | [] => .error (.badHeader [])
  | l :: ls => if l = objectHeader then readBody 0 ls else .error (.badHeader l)

/-- Opening and reading any file: `none` is a file that cannot be opened or read, and gives `IOError` (R142; log entry
16). -/
def openFile {α : Type} (file : Option α) : Except ToolError α :=
  match file with
  | none => .error .ioError
  | some contents => .ok contents

/-- The reader on a file: `IOError` if it does not open, before anything in it is looked at (R145). -/
def readFile (file : Option Text) : Except ToolError (List Word) :=
  match openFile file with
  | .error e => .error e
  | .ok t => readObject t

/-- The load: the words of the file in instruction memory of a fresh machine, or one error and no machine (R49, R143). -/
def loadFile (file : Option Text) : Except ToolError State := (readFile file).map State.loaded

/-- Assembly from a source file to a file: the source first, `IOError` if it does not open (R142); then the words; then
the destination, `IOError` if it cannot be opened or written; and no text on any error (R44, R143, R145). -/
def assembleFile (canWrite : Bool) (source : Option (List Text)) : Except ToolError Text :=
  match openFile source with
  | .error e => .error e
  | .ok lines =>
    match assemble lines with
    | .error e => .error e
    | .ok ws => if canWrite then .ok (writeObject ws) else .error .ioError

end Sys2Proof.Machine
end

