-- ==== Sys2Proof/Machine/Run.lean ====
section
/-! DEFINITION. The run loop under a cycle budget and the per-cycle report (`42_fetch_execute_cycle.md` R124 to R131).
The budget and the cycle count belong to the run, not to the machine (R22, R150). -/

namespace Sys2Proof.Machine

/-- One report: the cycle number and the state after the step; with disassembly, also the decoded instruction of that
cycle (R129 to R131). -/
structure Report where
  cycle : Nat
  pc : PcWord
  z : Bool
  x : RegFile
  shown : Option Record
  deriving DecidableEq, Repr

/-- The address the reporter recovers from the state after a step: the marker if it is set, else `pc - 1` (R130). -/
def shownAddr (t : State) : Nat :=
  match t.bo with
  | some b => b.toNat
  | none => t.pc.toNat - 1

/-- The decoded instruction the reporter shows (R130). -/
def shownRecord (t : State) : Option Record := (Memory.read t.imem (shownAddr t)).map decRecord

/-- The report after cycle `c` (R129), with disassembly if it is requested (R130). -/
def report (disasm : Bool) (c : Nat) (t : State) : Report :=
  ⟨c, t.pc, t.z, t.x, if disasm then shownRecord t else none⟩

/-- What a run gives: the state after the last cycle, the cycle count, the reports in order (R127, R131). -/
structure RunResult where
  final : State
  cycles : Nat
  reports : List Report
  deriving DecidableEq, Repr

/-- The loop of R124 with `n` cycles of the budget left, `c` cycles executed, from state `s`. It ends at once where a
step gives no next state: that is where the machine is Halted (R121). -/
def runLoop (disasm : Bool) : Nat → Nat → State → RunResult
  | 0, c, s => ⟨s, c, []⟩
  | n + 1, c, s =>
    if s.halted then ⟨s, c, []⟩
    else
      match step s with
      | .next t =>
        let r := runLoop disasm n (c + 1) t
        { r with reports := report disasm (c + 1) t :: r.reports }
      | .fault _ => ⟨s, c, []⟩
      | .refused _ => ⟨s, c, []⟩

/-- `run(IMEM, LEN, BUDGET)`: from the reset state with the words loaded (R124). -/
def run (disasm : Bool) (ws : List Word) (budget : Nat) : RunResult :=
  runLoop disasm budget 0 (State.loaded ws)

/-- Load a file and run it: on a load error no cycle is executed (R143). -/
def runFile (disasm : Bool) (file : Option Text) (budget : Nat) : Except ToolError RunResult :=
  (readFile file).map fun ws => run disasm ws budget

end Sys2Proof.Machine
end

