-- ==== Sys2Proof/Safety.lean ====
section
/-! DEFINITION. The terms the statements use: the states a load and the steps after it keep to, and what several steps
do. -/

namespace Sys2Proof.Machine

/-- Instruction memory holds a word at exactly the addresses below `LEN`, in canonical form, and `LEN` is at most 64
(R30, R31). -/
def Loaded (s : State) : Prop :=
  Memory.wf s.imem = true ∧ s.len ≤ Config.imemWords ∧ ∀ a, (Memory.read s.imem a).isSome = true ↔ a < s.len

/-- What holds at reset, after every load and after every step: a loaded program, and `pc` in 0 to 64 (R14). -/
def StateInv (s : State) : Prop := Loaded s ∧ s.pc.toNat ≤ Config.imemWords

/-- If the marker is set, it is the address of a loaded `bnz` that goes to the present `pc`, and `Z` is clear: the
branch taken in the step just executed (R18, R114). -/
def MarkerNamesTakenBranch (s : State) : Prop :=
  ∀ b, s.bo = some b →
    s.z = false ∧ ∃ w addr, Memory.read s.imem b.toNat = some w ∧ decodeWord w = .bnz addr ∧
      s.pc.toNat = addr.toNat

/-- The states from `s` on by steps of the engine (R39). -/
inductive Steps : Nat → State → State → Prop
  | zero (s : State) : Steps 0 s s
  | succ {n : Nat} {s t u : State} : step s = .next t → Steps n t u → Steps (n + 1) s u

/-- An operand token stands for an operand of the decoded record: the register's name, or a label bound to the target
(R65). -/
def TokenFor (labels : LabelTable) (t : Text) : Operand → Prop
  | .reg r => lower t = r.text
  | .target a => lookupLabel labels (lower t) = some a

/-- A token line, its label removed, is what DEC reads back from a word: the same mnemonic, and each operand token
stands for the operand of the record (R65). -/
def LineOf (labels : LabelTable) (tokens : List Text) (w : Word) : Prop :=
  ∃ t ops, tokens = t :: ops ∧ lower t = (decRecord w).mnemonic.text ∧
    List.Forall₂ (TokenFor labels) ops (decRecord w).operands

/-- A word only a hand-written object file can hold: a `not` whose unused field is not `00` (R63, R75). -/
def isNotWithF3 (w : Word) : Bool := decide ((unpack w).op = opcodeCode .not ∧ (unpack w).f3 ≠ 0)

/-- The lines of a source that pass 1 accepts (R79). -/
def acceptedLines (lines : List Text) : List Text := lines.filter fun l => !skipped l

/-- The accepted lines of a source, each with its line number, where the first line has number `n`: every line counts,
skipped ones too (R79, R85). -/
def numberedFrom (n : Nat) (lines : List Text) : List (Text × Nat) := (lines.zipIdx n).filter fun p => !skipped p.1

/-- The label of a source line, normalised, if it has one (R80). -/
def labelOf (line : Text) : Option Text := (splitLabel (split line separator)).1

/-- The labels of numbered lines, in order (R80). -/
def labelsOf (ls : List (Text × Nat)) : List Text := ls.filterMap fun p => labelOf p.1

/-- The tokens of a source line after its label (R80, R82). -/
def tokensOf (line : Text) : List Text := (splitLabel (split line separator)).2

end Sys2Proof.Machine
end

