-- ==== Sys2Proof/Certificates/Slice0/Obligations.lean ====
section
/-! DEFINITION. The statements for the provers. Each docstring names the rules of the spec a statement formalises;
where a clause rests on a decision that the spec marks as its own, it says so and names the log entry. -/

open Sys2Proof Sys2Proof.Machine

/-! ## The instruction word -/

/-- R56: PACK is `64*op + 16*f1 + 4*f2 + f3`, for all arguments. -/
def Obligations.PackIsTheWeightedSumOfItsFields : Prop :=
  ∀ op f1 f2 f3 : Field,
    (pack ⟨op, f1, f2, f3⟩).toNat = 64 * op.toNat + 16 * f1.toNat + 4 * f2.toNat + f3.toNat

/-- R57: UNPACK gives the slices 7:6, 5:4, 3:2 and 1:0, for all words. -/
def Obligations.UnpackReadsTheFourSlices : Prop :=
  ∀ w : Word,
    (unpack w).op.toNat = w.toNat / 64 ∧ (unpack w).f1.toNat = w.toNat / 16 % 4 ∧
      (unpack w).f2.toNat = w.toNat / 4 % 4 ∧ (unpack w).f3.toNat = w.toNat % 4

/-- R58 (derived by the spec from R56 and R57): PACK and UNPACK are inverse bijections. -/
def Obligations.PackAndUnpackAreInverse : Prop :=
  (∀ op f1 f2 f3 : Field, unpack (pack ⟨op, f1, f2, f3⟩) = ⟨op, f1, f2, f3⟩) ∧ ∀ w : Word, pack (unpack w) = w

/-- R52: where each operand stands in the word, format by format. `add` and `and` have the destination in f3, `not` has
it in f1 and `00` in f3, and the three fields of `bnz` together are its target. -/
def Obligations.FormatsPlaceTheOperands : Prop :=
  (∀ rn rm rd : Reg,
    unpack (encodeWord (.add rn rm rd)) = ⟨opcodeCode .add, regCode rn, regCode rm, regCode rd⟩ ∧
      unpack (encodeWord (.and rn rm rd)) = ⟨opcodeCode .and, regCode rn, regCode rm, regCode rd⟩) ∧
  (∀ rd rn : Reg, unpack (encodeWord (.not rd rn)) = ⟨opcodeCode .not, regCode rd, regCode rn, 0⟩) ∧
  ∀ addr : Addr,
    (unpack (encodeWord (.bnz addr))).op = opcodeCode .bnz ∧
      16 * (unpack (encodeWord (.bnz addr))).f1.toNat + 4 * (unpack (encodeWord (.bnz addr))).f2.toNat
        + (unpack (encodeWord (.bnz addr))).f3.toNat = addr.toNat

/-- Decode and encode agree: decoding the words of any instruction, whatever follows them, gives that instruction and
leaves what follows. -/
def Obligations.DecodeOfEncodeIsTheInstruction : Prop :=
  ∀ (i : Instr) (rest : List Word), decode (encode i ++ rest) = .ok (i, rest)

/-- Decoding reads exactly one word, and encoding the answer gives that word back, except that the unused field of a
`not` is written `00` (R63: decision D5, log entry 3). -/
def Obligations.EncodeOfDecodeDropsOnlyTheUnusedField : Prop :=
  ∀ (ws : List Word) (i : Instr) (rest : List Word), decode ws = .ok (i, rest) →
    ∃ w, ws = w :: rest ∧ encode i = [if isNotWithF3 w then w &&& 0xFC#8 else w]

/-- The field f3 of a `not` is ignored by the decoder and so by the engine: any value of it gives the same instruction
(R63: decision D5, log entry 3). -/
def Obligations.NotIgnoresItsUnusedField : Prop :=
  ∀ (rd rn : Reg) (f3 : Field), decodeWord (pack ⟨opcodeCode .not, regCode rd, regCode rn, f3⟩) = .not rd rn

/-- The three forms of the decoder agree on every word: DEC's record (R60) and DECX's indices (R61) are those of the
instruction the engine runs. -/
def Obligations.RecordAndControlAgreeWithTheInstruction : Prop :=
  ∀ w : Word, decRecord w = (decodeWord w).record ∧ decControl w = (decodeWord w).control

/-- Words of `95_test_vectors.md` section 2.1, written out in bits, decode to their instructions (the code values are
decisions D1 and D2, log entries 1 and 2). -/
def Obligations.SampleWordsDecode : Prop :=
  decode [0b00000110#8] = .ok (.add .r0 .r1 .r2, []) ∧
  decode [0b01101100#8] = .ok (.and .r2 .r3 .r0, []) ∧
  decode [0b10010000#8] = .ok (.not .r1 .r0, []) ∧
  decode [0b10010011#8] = .ok (.not .r1 .r0, []) ∧
  decode [0b11100100#8] = .ok (.bnz 36#6, [])

/-! ## Reset and load -/

/-- The reset values (R23, R170). The marker's value is decision D6 (log entry 6); that no program is loaded is the
model's (log entry 8). -/
def Obligations.ResetValues : Prop :=
  State.reset.pc.toNat = 0 ∧ (∀ r, (readReg State.reset r).toNat = 0) ∧ State.reset.z = false ∧
    State.reset.bo = none ∧ State.reset.len = 0 ∧ State.reset.halted = true

/-- The invariant holds at reset (that no program is loaded there is the model's choice, log entry 8). -/
def Obligations.ResetMeetsTheInvariant : Prop := StateInv State.reset

/-- A load of at most 64 words gives the reset state with word `k` at address `k` and nothing from `LEN` on (R31, R49),
and meets the invariant. -/
def Obligations.LoadPlacesTheWordsAndMeetsTheInvariant : Prop :=
  ∀ ws : List Word, ws.length ≤ 64 →
    StateInv (State.loaded ws) ∧ (State.loaded ws).len = ws.length ∧
      (∀ k, Memory.read (State.loaded ws).imem k = ws[k]?) ∧
      (State.loaded ws).pc = State.reset.pc ∧ (State.loaded ws).x = State.reset.x ∧
      (State.loaded ws).z = State.reset.z ∧ (State.loaded ws).bo = State.reset.bo

/-! ## The instructions -/

/-- R100 with its frame: `add` completes in every state and writes the sum modulo 256, `Z` from it, and `pc + 1`; no
other register, no memory. The clause `bo = none` is decision D6 (log entry 6). -/
def Obligations.AddWritesTheSumModulo256 : Prop :=
  ∀ (rn rm rd : Reg) (s : State), ∃ t, exec (.add rn rm rd) s = .next t ∧
    (readReg t rd).toNat = ((readReg s rn).toNat + (readReg s rm).toNat) % 256 ∧
    (t.z = true ↔ ((readReg s rn).toNat + (readReg s rm).toNat) % 256 = 0) ∧
    t.bo = none ∧
    (s.pc.toNat ≤ 64 → t.pc.toNat = s.pc.toNat + 1) ∧
    (∀ r, r ≠ rd → readReg t r = readReg s r) ∧
    (∀ a, Memory.read t.imem a = Memory.read s.imem a) ∧ t.len = s.len

/-- R101 with its frame: `and` completes in every state and writes the bitwise AND, `Z` from it, and `pc + 1`; no other
register, no memory. The clause `bo = none` is decision D6 (log entry 6). -/
def Obligations.AndWritesTheBitwiseAnd : Prop :=
  ∀ (rn rm rd : Reg) (s : State), ∃ t, exec (.and rn rm rd) s = .next t ∧
    (∀ k, (readReg t rd).getLsbD k = ((readReg s rn).getLsbD k && (readReg s rm).getLsbD k)) ∧
    (t.z = true ↔ (readReg t rd).toNat = 0) ∧
    t.bo = none ∧
    (s.pc.toNat ≤ 64 → t.pc.toNat = s.pc.toNat + 1) ∧
    (∀ r, r ≠ rd → readReg t r = readReg s r) ∧
    (∀ a, Memory.read t.imem a = Memory.read s.imem a) ∧ t.len = s.len

/-- R102 with its frame: `not` completes in every state and writes 255 minus its source, `Z` set exactly when the source
was 255, and `pc + 1`; no other register, no memory. The clause `bo = none` is decision D6 (log entry 6). -/
def Obligations.NotWritesTheComplement : Prop :=
  ∀ (rd rn : Reg) (s : State), ∃ t, exec (.not rd rn) s = .next t ∧
    (readReg t rd).toNat = 255 - (readReg s rn).toNat ∧
    (t.z = true ↔ (readReg s rn).toNat = 255) ∧
    t.bo = none ∧
    (s.pc.toNat ≤ 64 → t.pc.toNat = s.pc.toNat + 1) ∧
    (∀ r, r ≠ rd → readReg t r = readReg s r) ∧
    (∀ a, Memory.read t.imem a = Memory.read s.imem a) ∧ t.len = s.len

/-- R110 with its frame: `bnz` completes in every state; with `Z` set it falls through and clears the marker, with `Z`
clear it goes to its target and the marker is its own address; `Z`, the registers and memory are not written. The
natural-number clauses on `pc` and the marker are for the addresses an instruction can stand at (0 to 63). -/
def Obligations.BnzJumpsExactlyWhenZIsClear : Prop :=
  ∀ (addr : Addr) (s : State), ∃ t, exec (.bnz addr) s = .next t ∧
    (s.z = true → t.bo = none ∧ (s.pc.toNat ≤ 63 → t.pc.toNat = s.pc.toNat + 1)) ∧
    (s.z = false →
      t.pc.toNat = addr.toNat ∧ ∃ b, t.bo = some b ∧ (s.pc.toNat ≤ 63 → b.toNat = s.pc.toNat)) ∧
    t.z = s.z ∧ (∀ r, readReg t r = readReg s r) ∧
    (∀ a, Memory.read t.imem a = Memory.read s.imem a) ∧ t.len = s.len

/-- R103: after an instruction that writes a register, `Z` is 1 if and only if the value just written is 0. -/
def Obligations.ZeroFlagFollowsTheValueWritten : Prop :=
  ∀ (i : Instr) (rd : Reg) (s t : State), destReg i = some rd → exec i s = .next t →
    (t.z = true ↔ (readReg t rd).toNat = 0)

/-- R104: sources are read before the destination is written, so an instruction whose destination is also a source uses
the old value. -/
def Obligations.OverlappingOperandsUseTheOldValue : Prop :=
  ∀ (r q : Reg) (s : State),
    (∃ t, exec (.add r r r) s = .next t ∧ (readReg t r).toNat = 2 * (readReg s r).toNat % 256) ∧
    (∃ t, exec (.add r q r) s = .next t ∧
      (readReg t r).toNat = ((readReg s r).toNat + (readReg s q).toNat) % 256) ∧
    (∃ t, exec (.add q r r) s = .next t ∧
      (readReg t r).toNat = ((readReg s q).toNat + (readReg s r).toNat) % 256) ∧
    (∃ t, exec (.and r r r) s = .next t ∧ readReg t r = readReg s r) ∧
    (∃ t, exec (.and r q r) s = .next t ∧ readReg t r = (readReg s r &&& readReg s q)) ∧
    (∃ t, exec (.and q r r) s = .next t ∧ readReg t r = (readReg s q &&& readReg s r)) ∧
    ∃ t, exec (.not r r) s = .next t ∧ (readReg t r).toNat = 255 - (readReg s r).toNat

/-- The frame of every instruction (R12, R16, R33): only the destination register changes, `Z` changes only with a
register written, and no instruction writes instruction memory or `LEN`. -/
def Obligations.InstructionFrame : Prop :=
  ∀ (i : Instr) (s t : State), exec i s = .next t →
    (∀ r, destReg i ≠ some r → readReg t r = readReg s r) ∧ (destReg i = none → t.z = s.z) ∧
      (∀ a, Memory.read t.imem a = Memory.read s.imem a) ∧ t.imem = s.imem ∧ t.len = s.len

/-- The arithmetic laws of R106 (derived by the spec), as laws of the instructions: `add` and `and` commute, `not` twice
restores the value, a value plus its complement is 255. -/
def Obligations.ArithmeticLawsOfTheInstructions : Prop :=
  (∀ (rn rm rd : Reg) (s : State), exec (.add rn rm rd) s = exec (.add rm rn rd) s ∧
    exec (.and rn rm rd) s = exec (.and rm rn rd) s) ∧
  (∀ (rn rd : Reg) (s t u : State), exec (.not rd rn) s = .next t → exec (.not rd rd) t = .next u →
    readReg u rd = readReg s rn) ∧
  (∀ (rn rm rd : Reg) (s t u : State), rm ≠ rn → exec (.not rm rn) s = .next t → exec (.add rn rm rd) t = .next u →
    (readReg u rd).toNat = 255 ∧ u.z = false) ∧
  ∀ (ra rb rc rd : Reg) (s t u t' u' : State), rd ≠ ra → rd ≠ rc →
    exec (.add ra rb rd) s = .next t → exec (.add rd rc rd) t = .next u →
    exec (.add rb rc rd) s = .next t' → exec (.add ra rd rd) t' = .next u' →
    readReg u rd = readReg u' rd

/-! ## The step -/

/-- R120: a step of a Running machine executes the instruction its word decodes to, and adds nothing of its own. -/
def Obligations.StepRunsTheDecodedInstruction : Prop :=
  ∀ (s : State) (w : Word) (i : Instr), s.pc.toNat < s.len → Memory.read s.imem s.pc.toNat = some w →
    decode [w] = .ok (i, []) → step s = exec i s

/-- Running and Halted (R21, R121): from a state that meets the invariant there is a next state exactly when
`pc < LEN`; otherwise the model answers the fault that says Halted (the model's choice, log entry 10); nothing is
refused. -/
def Obligations.RunningMachinesStepAndHaltedOnesDoNot : Prop :=
  ∀ s : State, StateInv s →
    ((∃ t, step s = .next t) ↔ s.pc.toNat < s.len) ∧
    (∀ f, step s = .fault f ↔ (f = .halted ∧ s.len ≤ s.pc.toNat)) ∧
    ∀ r, step s ≠ .refused r

/-- Every step keeps the invariant: the loaded program stays, in canonical form, and `pc` stays in 0 to 64 (R14, R31,
R33). The bound 64 is decision D3 (log entry 4). -/
def Obligations.StepKeepsTheInvariant : Prop :=
  ∀ s t : State, StateInv s → step s = .next t → StateInv t

/-- What any step does (R15, R123): `pc` goes up by exactly 1 and the marker is clear, or the step was a taken `bnz`
that marks its own address; at most one register changes; `Z` is written exactly when a register is. The marker after an
arithmetic step is decision D6 (log entry 6). -/
def Obligations.EveryStepAdvancesOrTakesABranch : Prop :=
  ∀ s t : State, StateInv s → step s = .next t →
    ∃ w, Memory.read s.imem s.pc.toNat = some w ∧
      ((t.pc.toNat = s.pc.toNat + 1 ∧ t.bo = none) ∨
        ∃ addr, decodeWord w = .bnz addr ∧ s.z = false ∧ t.pc.toNat = addr.toNat ∧
          t.bo.map BitVec.toNat = some s.pc.toNat) ∧
      (destReg (decodeWord w) = none → t.z = s.z ∧ ∀ r, readReg t r = readReg s r) ∧
      (∀ rd, destReg (decodeWord w) = some rd →
        (t.z = true ↔ readReg t rd = 0) ∧ ∀ r, r ≠ rd → readReg t r = readReg s r) ∧
      t.imem = s.imem ∧ t.len = s.len

/-- R18, R114: after a step the marker, if set, is the address the step fetched from, that is of the `bnz` just taken,
which goes to the present `pc`, and `Z` is clear. That no other step leaves it set is decision D6 (log entry 6). -/
def Obligations.MarkerNamesTheBranchJustTaken : Prop :=
  ∀ s t : State, StateInv s → step s = .next t →
    MarkerNamesTakenBranch t ∧ ∀ b, t.bo = some b → b.toNat = s.pc.toNat

/-- R130: from the state after a step the reporter recovers the address the step fetched from, and shows the record of
the word there. -/
def Obligations.ReporterRecoversTheExecutedInstruction : Prop :=
  ∀ (s t : State) (w : Word), StateInv s → step s = .next t → Memory.read s.imem s.pc.toNat = some w →
    shownAddr t = s.pc.toNat ∧ shownRecord t = some (decRecord w)

/-- R113 (derived by the spec): a taken branch to an address at or beyond `LEN` is no fault; the machine is then Halted
with `pc` at that address. The answer of the step after it is the model's (log entry 10). -/
def Obligations.BranchBeyondTheProgramHalts : Prop :=
  ∀ (s : State) (w : Word) (addr : Addr), s.pc.toNat < s.len → Memory.read s.imem s.pc.toNat = some w →
    decodeWord w = .bnz addr → s.z = false → s.len ≤ addr.toNat →
    ∃ t, step s = .next t ∧ t.pc.toNat = addr.toNat ∧ t.halted = true ∧ step t = .fault .halted

/-! ## The run -/

/-- R124, R127: a run is the steps from its first state, as many as it counts; it stops when the budget is used or the
machine is Halted, not before and not after. -/
def Obligations.RunIsTheStepsUpToBudgetOrHalt : Prop :=
  ∀ (disasm : Bool) (budget c : Nat) (s : State), StateInv s →
    ∃ n, (runLoop disasm budget c s).cycles = c + n ∧ n ≤ budget ∧ Steps n s (runLoop disasm budget c s).final ∧
      (n = budget ∨ (runLoop disasm budget c s).final.halted = true) ∧
      (∀ k t, k < n → Steps k s t → t.halted = false) ∧ StateInv (runLoop disasm budget c s).final

/-- R125: if the machine first becomes Halted after `T` steps, a run executes `min(BUDGET, T)` cycles. -/
def Obligations.RunExecutesTheSmallerOfBudgetAndHaltTime : Prop :=
  ∀ (disasm : Bool) (budget T : Nat) (s u : State), Steps T s u → u.halted = true →
    (runLoop disasm budget 0 s).cycles = min budget T

/-- R129, R131: there is one report a cycle, in order, with the cycle's number counted from 1 and the `pc`, the flag and
the four registers of the state after that cycle. -/
def Obligations.ReportsGiveTheStateAfterEachCycle : Prop :=
  ∀ (disasm : Bool) (budget : Nat) (s : State),
    (runLoop disasm budget 0 s).reports.length = (runLoop disasm budget 0 s).cycles ∧
      ∀ k t, k < (runLoop disasm budget 0 s).cycles → Steps (k + 1) s t →
        ∃ r, (runLoop disasm budget 0 s).reports[k]? = some r ∧ r.cycle = k + 1 ∧ r.pc = t.pc ∧ r.z = t.z ∧ r.x = t.x

/-- R110, corner case: a `bnz` to its own address with `Z` clear repeats for ever; any number of steps leaves only the
marker changed, and a run ends by its budget alone. -/
def Obligations.BranchToItselfRepeatsUntilTheBudgetEnds : Prop :=
  ∀ (s : State) (w : Word) (addr : Addr), StateInv s → s.pc.toNat < s.len → Memory.read s.imem s.pc.toNat = some w →
    decodeWord w = .bnz addr → addr.toNat = s.pc.toNat → s.z = false →
    (∀ n, Steps (n + 1) s { s with bo := some addr }) ∧
      ∀ (disasm : Bool) (budget : Nat), (runLoop disasm budget 0 s).cycles = budget

/-- R18: the marker is a side channel that influences nothing. Whatever it held before, a machine takes the same steps to
the same states, and a run counts the same cycles and gives the same reports. That the states (the marker included) and
the disassembling reports are the same needs every step to rewrite the marker, which for `add`, `and` and `not` is
decision D6 (log entry 6). -/
def Obligations.MarkerInfluencesNoRun : Prop :=
  ∀ (s : State) (b : Option Addr),
    (∀ n t, Steps (n + 1) s t → Steps (n + 1) { s with bo := b } t) ∧
      ∀ (disasm : Bool) (budget : Nat),
        (runLoop disasm budget 0 { s with bo := b }).cycles = (runLoop disasm budget 0 s).cycles ∧
          (runLoop disasm budget 0 { s with bo := b }).reports = (runLoop disasm budget 0 s).reports

/-- R125, R126 (the empty program is decision D7): a run of no program, and a run with budget 0, execute nothing and
report nothing. -/
def Obligations.EmptyRunsExecuteNothing : Prop :=
  (∀ (disasm : Bool) (budget : Nat), run disasm [] budget = ⟨State.reset, 0, []⟩) ∧
    ∀ (disasm : Bool) (ws : List Word), run disasm ws 0 = ⟨State.loaded ws, 0, []⟩

/-- R142, R143, R145: a file that cannot be opened or read is `IOError`, any other is what the reader answers on its
text; on an error during the load there is no machine and no cycle; otherwise the run is that of the words read (that a
file which does not open is the argument `none` is the model's form, log entry 16). -/
def Obligations.LoadErrorsRunNothing : Prop :=
  readFile none = .error .ioError ∧ (∀ text : Text, readFile (some text) = readObject text) ∧
  ∀ (disasm : Bool) (file : Option Text) (budget : Nat),
    (∀ e, readFile file = .error e → loadFile file = .error e ∧ runFile disasm file budget = .error e) ∧
    ∀ ws, readFile file = .ok ws →
      loadFile file = .ok (State.loaded ws) ∧ runFile disasm file budget = .ok (run disasm ws budget)

/-! ## The encoder -/

/-- R72: which token goes to which field, for the four mnemonics, in any case of the tokens. The two operands of `not`
are decision D4 (log entry 5), the canonical form of names is decision D18 (log entry 13). -/
def Obligations.EncPacksEachTokenInItsField : Prop :=
  ∀ (labels : LabelTable) (line : Nat) (op t1 t2 t3 : Text) (q1 q2 q3 : Reg) (a : Addr),
    lower t1 = q1.text → lower t2 = q2.text → lower t3 = q3.text →
    (lower op = Mnemonic.text .add →
      enc [op, t1, t2, t3] labels line = .ok (pack ⟨opcodeCode .add, regCode q1, regCode q2, regCode q3⟩)) ∧
    (lower op = Mnemonic.text .and →
      enc [op, t1, t2, t3] labels line = .ok (pack ⟨opcodeCode .and, regCode q1, regCode q2, regCode q3⟩)) ∧
    (lower op = Mnemonic.text .not →
      enc [op, t1, t2] labels line = .ok (pack ⟨opcodeCode .not, regCode q1, regCode q2, 0⟩)) ∧
    ∀ l, lower op = Mnemonic.text .bnz → lookupLabel labels (lower l) = some a →
      enc [op, l] labels line
        = .ok (pack ⟨opcodeCode .bnz, a.extractLsb' 4 2, a.extractLsb' 2 2, a.extractLsb' 0 2⟩)

/-- R65, for one line: if ENC answers a word, DEC reads the same mnemonic and the same operands back from it (names are
compared in the canonical form of decision D18, log entry 13). -/
def Obligations.EncodedLinesDecodeToTheirTokens : Prop :=
  ∀ (tokens : List Text) (labels : LabelTable) (line : Nat) (w : Word),
    enc tokens labels line = .ok w → LineOf labels tokens w

/-- R65, whole: an assembled program, written to an object file and read back, gives for every accepted line a word that
decodes to that line's mnemonic and operands; conversely the record of every word but the 48 of R63, written as a token
line with any label bound to a `bnz` target, encodes to that word. That the line of a `not` has two operands is decision
D4 (log entry 5); names are compared in the canonical form of decision D18 (log entry 13). -/
def Obligations.AssembledProgramsRoundTrip : Prop :=
  (∀ (lines : List Text) (ws : List Word), assemble lines = .ok ws →
    readObject (writeObject ws) = .ok ws ∧
      ∃ labels accepted, pass1 lines 1 0 [] = .ok (labels, accepted) ∧
        List.Forall₂ (fun a w => LineOf labels a.tokens w) accepted ws) ∧
  ∀ (w : Word) (labels : LabelTable) (label : Text) (line : Nat), isNotWithF3 w = false →
    (∀ a, Operand.target a ∈ (decRecord w).operands → lookupLabel labels (lower label) = some a) →
    enc (recordTokens (decRecord w) label) labels line = .ok w

/-- R75 (derived by the spec): ENC emits every word but the 48 `not` words whose unused field is not `00`. -/
def Obligations.EncReachesAllWordsButNotWithF3 : Prop :=
  ∀ w : Word, (∃ tokens labels line, enc tokens labels line = .ok w) ↔ isNotWithF3 w = false

/-- R67: ENC does not look at the case of its tokens. The canonical form it compares them in takes each of `A` to `Z`
(characters 65 to 90) to `a` to `z` and leaves every other character as it is (decision D18, log entry 13). -/
def Obligations.EncIgnoresCase : Prop :=
  (∀ (t : Text) (k : Nat),
    (lower t)[k]? = t[k]?.map fun c => if 65 ≤ c.toNat ∧ c.toNat ≤ 90 then Char.ofNat (c.toNat + 32) else c) ∧
  ∀ (tokens tokens' : List Text) (labels : LabelTable) (line : Nat) (w : Word),
    tokens.map lower = tokens'.map lower → enc tokens labels line = .ok w → enc tokens' labels line = .ok w

/-- R74: the result of ENC depends on the label table only through what names are bound to, not on the order in which
they were bound. -/
def Obligations.EncDependsOnlyOnWhatLabelsAreBoundTo : Prop :=
  ∀ (labels labels' : LabelTable), (∀ n, lookupLabel labels n = lookupLabel labels' n) →
    ∀ (tokens : List Text) (line : Nat), enc tokens labels line = enc tokens labels' line

/-- The first two checks of ENC, in their order (R68, R69, R73; the order, the empty line and the operand count of `not`
are decisions D8, D10 and D4, log entries 5 and 14). -/
def Obligations.EncChecksTheOpcodeThenTheCount : Prop :=
  (∀ labels line, enc [] labels line = .error (.unknownOpcode [] line)) ∧
  (∀ (op : Text) (ops : List Text) labels line, (∀ m : Mnemonic, lower op ≠ m.text) →
    enc (op :: ops) labels line = .error (.unknownOpcode op line)) ∧
  ∀ (op : Text) (ops : List Text) (m : Mnemonic) labels line, lower op = m.text → ops.length ≠ arity m →
    enc (op :: ops) labels line = .error (.arityError m (arity m) ops.length line)

/-- The operand checks of ENC (R70, R71, R73; the error for a token that does not start with `r`, and the order, are
decisions D9 and D8, log entry 14): with the right operand count, the leftmost token that names no register is reported;
a label that is not in the table is reported. -/
def Obligations.EncReportsTheLeftmostBadOperand : Prop :=
  (∀ (op : Text) (before : List Text) (t : Text) (after : List Text) (m : Mnemonic) labels line,
    lower op = m.text → m ≠ .bnz → (before ++ t :: after).length = arity m →
    (∀ b ∈ before, ∃ r : Reg, lower b = r.text) → (∀ r : Reg, lower t ≠ r.text) →
    enc (op :: (before ++ t :: after)) labels line = .error (.invalidRegister t line)) ∧
  ∀ (op t : Text) labels line, lower op = Mnemonic.text .bnz → lookupLabel labels (lower t) = none →
    enc [op, t] labels line = .error (.undefinedLabel t line)

/-! ## The assembler -/

/-- R77: `split` by its equations. The text after a `;` counts for nothing, a separator divides the line, and a piece
with neither is one token unless it is empty. -/
def Obligations.SplitCutsCommentsAndSeparators : Prop :=
  (∀ sep, split [] sep = []) ∧
  (∀ (a b : Text) (sep : Char), ';' ∉ a → split (a ++ ';' :: b) sep = split a sep) ∧
  (∀ (a b : Text) (sep : Char), sep ≠ ';' → ';' ∉ a → split (a ++ sep :: b) sep = split a sep ++ split b sep) ∧
  ∀ (t : Text) (sep : Char), t ≠ [] → sep ∉ t → ';' ∉ t → split t sep = [t]

/-- R77 to R79: a line that is neither blank nor a comment has at least one token, so pass 1 always finds the first
token it looks at (the separator and the blank characters are decision D11, log entry 13). -/
def Obligations.AcceptedLinesHaveAToken : Prop :=
  ∀ line : Text, skipped line = false → split line separator ≠ []

/-- R79, R81, R85: if pass 1 succeeds, the accepted lines are those it does not skip, in file order, at addresses 0, 1, 2
and so on, at most 64 of them, each with its tokens after the label and with its line number: its 1-based position in
the file, skipped lines counted (decision D17, log entry 14). -/
def Obligations.PassOneNumbersTheAcceptedLines : Prop :=
  ∀ (lines : List Text) (labels : LabelTable) (accepted : List Accepted),
    pass1 lines 1 0 [] = .ok (labels, accepted) →
    accepted.map Accepted.addr = List.range accepted.length ∧ accepted.length ≤ 64 ∧
      (accepted.map fun a => (a.tokens, a.line)) = (numberedFrom 1 lines).map fun p => (tokensOf p.1, p.2)

/-- R80: if pass 1 succeeds, the label table binds each name once, to the address of the accepted line that carries it,
and distinct names to distinct addresses (names normalised by decision D18, log entry 13). -/
def Obligations.PassOneBindsEachLabelToItsLine : Prop :=
  ∀ (lines : List Text) (labels : LabelTable) (accepted : List Accepted),
    pass1 lines 1 0 [] = .ok (labels, accepted) →
    (labels.map Prod.fst).Nodup ∧ (labels.map Prod.snd).Nodup ∧
      ∀ (name : Text) (a : Addr),
        lookupLabel labels name = some a ↔ ((acceptedLines lines).map labelOf)[a.toNat]? = some (some name)

/-- R80, R81, R85: when pass 1 succeeds and which error it gives. It succeeds exactly with at most 64 accepted lines and
no label bound twice. Else the first line to fail decides: one of the first 64 accepted lines that binds a label bound
before it is `DuplicateLabel` with that name and the number of that line, however many lines follow; if the first 64
bind no label twice, a 65th is `MemoryOverflow`, whatever label it carries. There is no other error, and a name it
reports is bound at least twice. The order of the two is decision D8, the line number D17 (log entry 14), the normalised
names D18 (log entry 13). -/
def Obligations.PassOneFailsOnlyOnOverflowOrDuplicates : Prop :=
  ∀ lines : List Text,
    ((∃ r, pass1 lines 1 0 [] = .ok r) ↔
      (numberedFrom 1 lines).length ≤ 64 ∧ (labelsOf (numberedFrom 1 lines)).Nodup) ∧
    (∀ before l line after name, numberedFrom 1 lines = before ++ (l, line) :: after → before.length < 64 →
      (labelsOf before).Nodup → labelOf l = some name → name ∈ labelsOf before →
      pass1 lines 1 0 [] = .error (.duplicateLabel name line)) ∧
    (∀ before rest, numberedFrom 1 lines = before ++ rest → before.length = 64 → rest ≠ [] →
      (labelsOf before).Nodup → pass1 lines 1 0 [] = .error .memoryOverflow) ∧
    ∀ e, pass1 lines 1 0 [] = .error e →
      e = .memoryOverflow ∨
        ∃ name line, e = .duplicateLabel name line ∧ 2 ≤ (labelsOf (numberedFrom 1 lines)).count name

/-- R81, R113: what the assembler produces fits instruction memory, has one word for each accepted line, and branches
only to its own instructions. -/
def Obligations.AssembledProgramsAreWellFormed : Prop :=
  ∀ (lines : List Text) (ws : List Word), assemble lines = .ok ws →
    Program.wellFormed (ws.map decodeWord) = true ∧ ws.length = (acceptedLines lines).length

/-- R82, R142, R143, R145: one error at most, the first met (the order is decision D8, log entry 14). A source file that
cannot be opened or read is `IOError`, whatever the destination (log entry 16). Of a source that is read, an error of
pass 1 is the answer whatever pass 2 would say; then the first accepted line, in address order, that ENC refuses; then a
destination that cannot be written; and on any error there is no output. -/
def Obligations.AssemblyReportsTheFirstError : Prop :=
  (∀ canWrite : Bool, assembleFile canWrite none = .error .ioError) ∧
  ∀ (lines : List Text) (canWrite : Bool),
    (∀ e, pass1 lines 1 0 [] = .error e → assembleFile canWrite (some lines) = .error e) ∧
    (∀ labels before a after e, pass1 lines 1 0 [] = .ok (labels, before ++ a :: after) →
      (∀ b ∈ before, ∃ w, enc b.tokens labels b.line = .ok w) → enc a.tokens labels a.line = .error e →
      assembleFile canWrite (some lines) = .error e) ∧
    ∀ labels accepted, pass1 lines 1 0 [] = .ok (labels, accepted) →
      (∀ b ∈ accepted, ∃ w, enc b.tokens labels b.line = .ok w) →
      if canWrite then ∃ ws, assembleFile canWrite (some lines) = .ok (writeObject ws) ∧
          List.Forall₂ (fun b w => enc b.tokens labels b.line = .ok w) accepted ws
        else assembleFile canWrite (some lines) = .error .ioError

/-- R148: nothing raises `LexError`. -/
def Obligations.NothingRaisesLexError : Prop :=
  (∀ lines, assemble lines ≠ .error .lexError) ∧
  (∀ canWrite source, assembleFile canWrite source ≠ .error .lexError) ∧
  (∀ file, readFile file ≠ .error .lexError ∧ loadFile file ≠ .error .lexError) ∧
  ∀ disasm file budget, runFile disasm file budget ≠ .error .lexError

/-! ## The object file -/

/-- R43: a body line is the digit of the high nibble, then the digit of the low nibble: `0` to `9` for 0 to 9 and `A` to
`F` for 10 to 15. -/
def Obligations.BodyLinesSpellTheTwoNibbles : Prop :=
  ∀ w : Word, ∃ d1 d0, spellWord w = [d1, d0] ∧
    d1.toNat = (if w.toNat / 16 < 10 then 48 + w.toNat / 16 else 55 + w.toNat / 16) ∧
    d0.toNat = (if w.toNat % 16 < 10 then 48 + w.toNat % 16 else 55 + w.toNat % 16)

/-- R46: a line is a word exactly if it is two hexadecimal digits, and the word is 16 times the first value plus the
second (lower-case digits are decision D12, log entry 15). -/
def Obligations.BodyLinesAreTwoHexDigits : Prop :=
  (∀ (t : Text) (w : Word), parseWord t = some w ↔
    ∃ c1 c0 d1 d0, t = [c1, c0] ∧ hexValue c1 = some d1 ∧ hexValue c0 = some d0 ∧
      w.toNat = 16 * d1.toNat + d0.toNat) ∧
  ∀ (c : Char) (d : BitVec 4), hexValue c = some d ↔
    (c.toNat = 48 + d.toNat ∧ d.toNat < 10) ∨ (c.toNat = 55 + d.toNat ∧ 10 ≤ d.toNat) ∨
      (c.toNat = 87 + d.toNat ∧ 10 ≤ d.toNat)

/-- R48 (decision D14, log entry 15): lines are cut at each line feed; a final line feed starts no line, and a last line
without one is a line. -/
def Obligations.LinesAreCutAtLineFeeds : Prop :=
  (∀ ls : List Text, (∀ l ∈ ls, '\n' ∉ l) → cutLines (joinLines ls) = ls) ∧
    ∀ (ls : List Text) (l : Text), (∀ k ∈ ls, '\n' ∉ k) → l ≠ [] → '\n' ∉ l →
      cutLines (joinLines ls ++ l) = ls ++ [l]

/-- R44, R49: reading what the writer wrote gives the words back, and whatever was read, written and read again, is the
same words; a reader never gives more than 64. -/
def Obligations.ObjectFilesRoundTrip : Prop :=
  (∀ ws : List Word, ws.length ≤ 64 → readObject (writeObject ws) = .ok ws) ∧
    ∀ (file : Text) (ws : List Word), readObject file = .ok ws →
      ws.length ≤ 64 ∧ readObject (writeObject ws) = .ok ws

/-- R45 to R47, R145: what the reader answers, in the order of the lines. A wrong first line is `BadHeader`; then the
first malformed line among the first 64 is `MalformedWord`; then a 65th line is `MemoryOverflow`; else the words are
read (a file with no line, the 65th line, and the order are decisions D14, D13 and D8, log entries 12, 14 and 15). -/
def Obligations.ReaderReportsTheFirstBadLine : Prop :=
  (∀ file : Text, cutLines file = [] → readObject file = .error (.badHeader [])) ∧
  (∀ (file l : Text) (ls : List Text), cutLines file = l :: ls → l ≠ objectHeader →
    readObject file = .error (.badHeader l)) ∧
  ∀ (file : Text) (good : List Text) (ws : List Word) (rest : List Text),
    cutLines file = objectHeader :: (good ++ rest) → good.map parseWord = ws.map some →
    (good.length ≤ 64 ∧ rest = [] → readObject file = .ok ws) ∧
    (∀ bad after, good.length < 64 ∧ rest = bad :: after ∧ parseWord bad = none →
      readObject file = .error (.malformedWord bad)) ∧
    (good.length = 64 ∧ rest ≠ [] → readObject file = .error .memoryOverflow)

/-! ## What a report shows -/

/-- R130: with disassembly a report shows what the reporter recovers from the state after the cycle, and from a state that
meets the invariant that is DEC of the word the cycle executed (that arithmetic clears the marker, so that `pc - 1` is
the address, is decision D6, log entry 6); without disassembly it shows nothing. -/
def Obligations.ReportsShowTheInstructionOfTheirCycle : Prop :=
  ∀ (budget k : Nat) (s u t : State), k < (runLoop true budget 0 s).cycles → Steps k s u → step u = .next t →
    (∃ r, (runLoop true budget 0 s).reports[k]? = some r ∧ r.shown = shownRecord t ∧
      (StateInv s → ∃ w, Memory.read u.imem u.pc.toNat = some w ∧ r.shown = some (decRecord w))) ∧
    ∃ r, (runLoop false budget 0 s).reports[k]? = some r ∧ r.shown = none
end

