-- ==== Sys2Proof/Laws/Codes.lean ====
section
/-! SUPPORT. The code tables are bijections, the only property of them that other rules rely on (R53, R54). -/

namespace Sys2Proof

@[simp] theorem mnemonicOf_opcodeCode (m : Mnemonic) : mnemonicOf (opcodeCode m) = m := by cases m <;> rfl

@[simp] theorem opcodeCode_mnemonicOf (c : Field) : opcodeCode (mnemonicOf c) = c := by
  revert c; decide

@[simp] theorem regOf_regCode (r : Reg) : regOf (regCode r) = r := by cases r <;> rfl

@[simp] theorem regCode_regOf (c : Field) : regCode (regOf c) = c := by
  revert c; decide

end Sys2Proof
end

