-- ==== Sys2Proof/Laws/State.lean ====
section
/-! SUPPORT. One lemma per field per update of the state, and the register file's read-after-write laws: later proofs
unfold no record update. -/

namespace Sys2Proof.Machine

/-! ## The register file -/

@[simp] theorem RegFile.get_set_same (x : RegFile) (r : Reg) (v : Word) : (x.set r v).get r = v := by
  cases r <;> rfl

theorem RegFile.get_set_other (x : RegFile) {r q : Reg} (v : Word) (h : q ≠ r) :
    (x.set r v).get q = x.get q := by
  cases r <;> cases q <;> first | rfl | exact absurd rfl h

/-! ## `writeReg` -/

@[simp] theorem writeReg_pc (s : State) (r : Reg) (v : Word) : (writeReg s r v).pc = s.pc := rfl
@[simp] theorem writeReg_z (s : State) (r : Reg) (v : Word) : (writeReg s r v).z = s.z := rfl
@[simp] theorem writeReg_bo (s : State) (r : Reg) (v : Word) : (writeReg s r v).bo = s.bo := rfl
@[simp] theorem writeReg_imem (s : State) (r : Reg) (v : Word) : (writeReg s r v).imem = s.imem := rfl
@[simp] theorem writeReg_len (s : State) (r : Reg) (v : Word) : (writeReg s r v).len = s.len := rfl
@[simp] theorem writeReg_x (s : State) (r : Reg) (v : Word) : (writeReg s r v).x = s.x.set r v := rfl

@[simp] theorem readReg_writeReg_same (s : State) (r : Reg) (v : Word) : readReg (writeReg s r v) r = v :=
  RegFile.get_set_same s.x r v

theorem readReg_writeReg_other (s : State) {r q : Reg} (v : Word) (h : q ≠ r) :
    readReg (writeReg s r v) q = readReg s q :=
  RegFile.get_set_other s.x v h

/-! ## `setZero` -/

@[simp] theorem setZero_pc (s : State) (v : Word) : (setZero s v).pc = s.pc := rfl
@[simp] theorem setZero_x (s : State) (v : Word) : (setZero s v).x = s.x := rfl
@[simp] theorem setZero_z (s : State) (v : Word) : (setZero s v).z = zeroFlag v := rfl
@[simp] theorem setZero_bo (s : State) (v : Word) : (setZero s v).bo = s.bo := rfl
@[simp] theorem setZero_imem (s : State) (v : Word) : (setZero s v).imem = s.imem := rfl
@[simp] theorem setZero_len (s : State) (v : Word) : (setZero s v).len = s.len := rfl
@[simp] theorem readReg_setZero (s : State) (v : Word) (r : Reg) : readReg (setZero s v) r = readReg s r := rfl

/-! ## `advance` -/

@[simp] theorem advance_pc (s : State) : (advance s).pc = s.pc + 1 := rfl
@[simp] theorem advance_x (s : State) : (advance s).x = s.x := rfl
@[simp] theorem advance_z (s : State) : (advance s).z = s.z := rfl
@[simp] theorem advance_bo (s : State) : (advance s).bo = none := rfl
@[simp] theorem advance_imem (s : State) : (advance s).imem = s.imem := rfl
@[simp] theorem advance_len (s : State) : (advance s).len = s.len := rfl
@[simp] theorem readReg_advance (s : State) (r : Reg) : readReg (advance s) r = readReg s r := rfl

/-! ## `jump` -/

@[simp] theorem jump_pc (s : State) (a : Addr) : (jump s a).pc = a.setWidth 7 := rfl
@[simp] theorem jump_x (s : State) (a : Addr) : (jump s a).x = s.x := rfl
@[simp] theorem jump_z (s : State) (a : Addr) : (jump s a).z = s.z := rfl
@[simp] theorem jump_bo (s : State) (a : Addr) : (jump s a).bo = some (s.pc.setWidth 6) := rfl
@[simp] theorem jump_imem (s : State) (a : Addr) : (jump s a).imem = s.imem := rfl
@[simp] theorem jump_len (s : State) (a : Addr) : (jump s a).len = s.len := rfl
@[simp] theorem readReg_jump (s : State) (a : Addr) (r : Reg) : readReg (jump s a) r = readReg s r := rfl

/-! ## `aluDone` -/

@[simp] theorem aluDone_pc (s : State) (rd : Reg) (v : Word) : (aluDone s rd v).pc = s.pc + 1 := rfl
@[simp] theorem aluDone_x (s : State) (rd : Reg) (v : Word) : (aluDone s rd v).x = s.x.set rd v := rfl
@[simp] theorem aluDone_z (s : State) (rd : Reg) (v : Word) : (aluDone s rd v).z = zeroFlag v := rfl
@[simp] theorem aluDone_bo (s : State) (rd : Reg) (v : Word) : (aluDone s rd v).bo = none := rfl
@[simp] theorem aluDone_imem (s : State) (rd : Reg) (v : Word) : (aluDone s rd v).imem = s.imem := rfl
@[simp] theorem aluDone_len (s : State) (rd : Reg) (v : Word) : (aluDone s rd v).len = s.len := rfl

@[simp] theorem readReg_aluDone_same (s : State) (rd : Reg) (v : Word) : readReg (aluDone s rd v) rd = v :=
  RegFile.get_set_same s.x rd v

theorem readReg_aluDone_other (s : State) {rd r : Reg} (v : Word) (h : r ≠ rd) :
    readReg (aluDone s rd v) r = readReg s r :=
  RegFile.get_set_other s.x v h

/-! ## `State.loaded` and `State.withFetchWord` -/

@[simp] theorem loaded_pc (ws : List Word) : (State.loaded ws).pc = 0 := rfl
@[simp] theorem loaded_z (ws : List Word) : (State.loaded ws).z = false := rfl
@[simp] theorem loaded_bo (ws : List Word) : (State.loaded ws).bo = none := rfl
@[simp] theorem loaded_x (ws : List Word) : (State.loaded ws).x = State.reset.x := rfl
@[simp] theorem loaded_imem (ws : List Word) : (State.loaded ws).imem = Memory.ofWords 0 ws := rfl
@[simp] theorem loaded_len (ws : List Word) : (State.loaded ws).len = ws.length := rfl

@[simp] theorem withFetchWord_pc (s : State) (n w : Nat) : (s.withFetchWord n w).pc = s.pc := rfl
@[simp] theorem withFetchWord_x (s : State) (n w : Nat) : (s.withFetchWord n w).x = s.x := rfl
@[simp] theorem withFetchWord_z (s : State) (n w : Nat) : (s.withFetchWord n w).z = s.z := rfl
@[simp] theorem withFetchWord_bo (s : State) (n w : Nat) : (s.withFetchWord n w).bo = s.bo := rfl

/-! ## The flag and the halt test -/

theorem zeroFlag_iff (v : Word) : zeroFlag v = true ↔ v = 0 := by simp [zeroFlag]

theorem halted_iff (s : State) : s.halted = true ↔ s.len ≤ s.pc.toNat := by simp [State.halted]

theorem not_halted_iff (s : State) : s.halted = false ↔ s.pc.toNat < s.len := by simp [State.halted]

end Sys2Proof.Machine
end

