-- ==== Sys2Proof/Laws/Memory.lean ====
section
/-! SUPPORT. Instruction memory: a read after a write, the canonical form that every operation keeps, and the memory a
load makes. -/

namespace Sys2Proof.Machine

@[simp] theorem Memory.read_nil (a : Nat) : Memory.read [] a = none := rfl

theorem Memory.read_write_same (m : Memory) (a : Nat) (b : Word) : Memory.read (Memory.write m a b) a = some b := by
  induction m with
  | nil => simp [Memory.write, Memory.read]
  | cons c m ih =>
    obtain ⟨k, d⟩ := c
    unfold Memory.write
    split
    · simp [Memory.read]
    · split
      · simp [Memory.read]
      · have hk : k ≠ a := by omega
        simp [Memory.read, hk, ih]

theorem Memory.read_write_other (m : Memory) {a q : Nat} (b : Word) (h : q ≠ a) :
    Memory.read (Memory.write m a b) q = Memory.read m q := by
  have hne : a ≠ q := Ne.symm h
  induction m with
  | nil => simp [Memory.write, Memory.read, hne]
  | cons c m ih =>
    obtain ⟨k, d⟩ := c
    unfold Memory.write
    split
    · simp [Memory.read, hne]
    · split
      · next hk => subst hk; simp [Memory.read, hne]
      · simp [Memory.read, ih]

theorem Memory.above_write {m : Memory} {k a : Nat} {b : Word} (h : Memory.above k m = true) (ha : k < a) :
    Memory.above k (Memory.write m a b) = true := by
  induction m with
  | nil => simp [Memory.write, Memory.above, ha]
  | cons c m ih =>
    obtain ⟨j, d⟩ := c
    simp only [Memory.above, List.all_cons, Bool.and_eq_true, decide_eq_true_eq] at h ih
    unfold Memory.write
    split
    · simpa [Memory.above, ha] using h
    · split
      · simpa [Memory.above, ha] using h.2
      · simpa [Memory.above, h.1] using ih h.2

theorem Memory.above_mono {m : Memory} {j k : Nat} (h : Memory.above k m = true) (hj : j ≤ k) :
    Memory.above j m = true := by
  simp only [Memory.above, List.all_eq_true, decide_eq_true_eq] at h ⊢
  exact fun c hc => Nat.lt_of_le_of_lt hj (h c hc)

/-- A write keeps the canonical form. -/
theorem Memory.wf_write {m : Memory} (h : Memory.wf m = true) (a : Nat) (b : Word) :
    Memory.wf (Memory.write m a b) = true := by
  induction m with
  | nil => rfl
  | cons c m ih =>
    obtain ⟨k, d⟩ := c
    simp only [Memory.wf, Bool.and_eq_true] at h ih
    unfold Memory.write
    split
    · next hk =>
      have hlow := Memory.above_mono h.1 (Nat.le_of_lt hk)
      simp only [Memory.above] at hlow
      simp [Memory.wf, Memory.above, hk, hlow, h.2]
      simpa [Memory.above] using h.1
    · split
      · next hk => subst hk; simp [Memory.wf, h.1, h.2]
      · have hk : k < a := by omega
        simp [Memory.wf, Memory.above_write h.1 hk, ih h.2]

theorem Memory.above_ofWords (ws : List Word) {k base : Nat} (h : k < base) :
    Memory.above k (Memory.ofWords base ws) = true := by
  induction ws generalizing base with
  | nil => rfl
  | cons w ws ih =>
    have := ih (base := base + 1) (by omega)
    simp only [Memory.above] at this
    simp [Memory.ofWords, Memory.above, h, this]

/-- The memory a load makes has the canonical form. -/
theorem Memory.wf_ofWords (base : Nat) (ws : List Word) : Memory.wf (Memory.ofWords base ws) = true := by
  induction ws generalizing base with
  | nil => rfl
  | cons w ws ih => simp [Memory.ofWords, Memory.wf, Memory.above_ofWords, ih]

/-- What the memory a load makes holds at each address from its base on. -/
theorem Memory.read_ofWords (base : Nat) (ws : List Word) (k : Nat) :
    Memory.read (Memory.ofWords base ws) (base + k) = ws[k]? := by
  induction ws generalizing base k with
  | nil => simp [Memory.ofWords]
  | cons w ws ih =>
    cases k with
    | zero => simp [Memory.ofWords, Memory.read]
    | succ k =>
      have := ih (base + 1) k
      rw [show base + 1 + k = base + (k + 1) by omega] at this
      simp [Memory.ofWords, Memory.read, this]

/-- Placing the next instruction keeps the canonical form. -/
theorem withFetchWord_wf {s : State} (h : Memory.wf s.imem = true) (n w : Nat) :
    Memory.wf (s.withFetchWord n w).imem = true :=
  Memory.wf_write h _ _

/-- The step after `withFetchWord` fetches the placed word. -/
theorem fetch_withFetchWord (s : State) (n w : Nat) :
    fetch (s.withFetchWord n w) = .ok (BitVec.ofNat 8 (w % 2 ^ n)) := by
  have hh : (s.withFetchWord n w).halted = false := by
    rw [not_halted_iff]; simp only [State.withFetchWord]; omega
  have hr : Memory.read (s.withFetchWord n w).imem (s.withFetchWord n w).pc.toNat
      = some (BitVec.ofNat 8 (w % 2 ^ n)) := Memory.read_write_same _ _ _
  simp only [fetch, hh, hr, Bool.false_eq_true, if_false]

theorem reset_imem_wf : Memory.wf State.reset.imem = true := rfl

end Sys2Proof.Machine
end

