-- ==== Sys2Proof/Laws/Source.lean ====
section
/-! SUPPORT. The encoder side, said once: what a token can name, what the resolution of operands can answer, and the
equations of pass 1 and pass 2. -/

namespace Sys2Proof.Machine

/-! ## Tokens -/

theorem mnemonic_text_inj {m k : Mnemonic} (h : m.text = k.text) : m = k := by
  revert h; cases m <;> cases k <;> decide

theorem reg_text_inj {r q : Reg} (h : r.text = q.text) : r = q := by
  revert h; cases r <;> cases q <;> decide

theorem mnemonicOfToken_some {t : Text} {m : Mnemonic} : mnemonicOfToken t = some m ↔ lower t = m.text := by
  constructor
  · intro h
    unfold mnemonicOfToken at h
    split at h
    · cases h; assumption
    · split at h
      · cases h; assumption
      · split at h
        · cases h; assumption
        · split at h
          · cases h; assumption
          · cases h
  · intro h
    cases m <;> simp [mnemonicOfToken, h, Mnemonic.text]

theorem mnemonicOfToken_none {t : Text} : mnemonicOfToken t = none ↔ ∀ m : Mnemonic, lower t ≠ m.text := by
  constructor
  · intro h m hm
    rw [mnemonicOfToken_some.mpr hm] at h
    cases h
  · intro h
    cases hm : mnemonicOfToken t with
    | none => rfl
    | some m => exact absurd (mnemonicOfToken_some.mp hm) (h m)

theorem regOfToken_some {t : Text} {r : Reg} : regOfToken t = some r ↔ lower t = r.text := by
  constructor
  · intro h
    unfold regOfToken at h
    split at h
    · cases h; assumption
    · split at h
      · cases h; assumption
      · split at h
        · cases h; assumption
        · split at h
          · cases h; assumption
          · cases h
  · intro h
    cases r <;> simp [regOfToken, h, Reg.text]

theorem regOfToken_none {t : Text} : regOfToken t = none ↔ ∀ r : Reg, lower t ≠ r.text := by
  constructor
  · intro h r hr
    rw [regOfToken_some.mpr hr] at h
    cases h
  · intro h
    cases hr : regOfToken t with
    | none => rfl
    | some r => exact absurd (regOfToken_some.mp hr) (h r)

/-! ## Operands -/

theorem resolveReg_ok {t : Text} {line : Nat} {r : Reg} : resolveReg t line = .ok r ↔ lower t = r.text := by
  rw [← regOfToken_some]
  unfold resolveReg
  cases regOfToken t <;> simp

theorem resolveReg_error {t : Text} {line : Nat} {e : ToolError} (h : resolveReg t line = .error e) :
    e = .invalidRegister t line ∧ ∀ r : Reg, lower t ≠ r.text := by
  unfold resolveReg at h
  split at h
  · cases h
  · next hn => cases h; exact ⟨rfl, regOfToken_none.mp hn⟩

theorem resolveReg_of_none {t : Text} {line : Nat} (h : ∀ r : Reg, lower t ≠ r.text) :
    resolveReg t line = .error (.invalidRegister t line) := by
  simp [resolveReg, regOfToken_none.mpr h]

theorem resolveLabel_ok {t : Text} {labels : LabelTable} {line : Nat} {a : Addr} :
    resolveLabel t labels line = .ok a ↔ lookupLabel labels (lower t) = some a := by
  unfold resolveLabel
  cases lookupLabel labels (lower t) <;> simp

theorem resolveLabel_error {t : Text} {labels : LabelTable} {line : Nat} {e : ToolError}
    (h : resolveLabel t labels line = .error e) :
    e = .undefinedLabel t line ∧ lookupLabel labels (lower t) = none := by
  unfold resolveLabel at h
  split at h
  · cases h
  · next hn => cases h; exact ⟨rfl, hn⟩

theorem bind_ok {α β ε : Type} {x : Except ε α} {f : α → Except ε β} {b : β} (h : (x >>= f) = .ok b) :
    ∃ a, x = .ok a ∧ f a = .ok b := by
  cases x with
  | error e => cases h
  | ok a => exact ⟨a, rfl, h⟩

theorem bind_error {α β ε : Type} {x : Except ε α} {f : α → Except ε β} {e : ε} (h : (x >>= f) = .error e) :
    x = .error e ∨ ∃ a, x = .ok a ∧ f a = .error e := by
  cases x with
  | error e' => cases h; exact .inl rfl
  | ok a => exact .inr ⟨a, rfl, h⟩

theorem map_ok {α β ε : Type} {x : Except ε α} {f : α → β} {b : β} (h : x.map f = .ok b) :
    ∃ a, x = .ok a ∧ f a = b := by
  cases x with
  | error e => cases h
  | ok a => exact ⟨a, rfl, Except.ok.inj h⟩

theorem map_error {α β ε : Type} {x : Except ε α} {f : α → β} {e : ε} (h : x.map f = .error e) : x = .error e := by
  cases x with
  | error e' => cases h; rfl
  | ok a => cases h

/-- If the operands of a mnemonic resolve, then they are register names in the operand positions, or one label in the
table. -/
theorem resolveOperands_ok {m : Mnemonic} {ops : List Text} {labels : LabelTable} {line : Nat} {i : Instr}
    (h : resolveOperands m ops labels line = .ok i) :
    (∃ t1 t2 t3 q1 q2 q3, ops = [t1, t2, t3] ∧ lower t1 = Reg.text q1 ∧ lower t2 = Reg.text q2 ∧
      lower t3 = Reg.text q3 ∧ ((m = .add ∧ i = .add q1 q2 q3) ∨ (m = .and ∧ i = .and q1 q2 q3))) ∨
    (∃ t1 t2 q1 q2, m = .not ∧ ops = [t1, t2] ∧ lower t1 = Reg.text q1 ∧ lower t2 = Reg.text q2 ∧
      i = .not q1 q2) ∨
    (∃ t1 a, m = .bnz ∧ ops = [t1] ∧ lookupLabel labels (lower t1) = some a ∧ i = .bnz a) := by
  unfold resolveOperands at h
  split at h
  · next t1 t2 t3 =>
    obtain ⟨q1, h1, h⟩ := bind_ok h
    obtain ⟨q2, h2, h⟩ := bind_ok h
    obtain ⟨q3, h3, h⟩ := bind_ok h
    exact .inl ⟨t1, t2, t3, q1, q2, q3, rfl, resolveReg_ok.mp h1, resolveReg_ok.mp h2, resolveReg_ok.mp h3,
      .inl ⟨rfl, (Except.ok.inj h).symm⟩⟩
  · next t1 t2 t3 =>
    obtain ⟨q1, h1, h⟩ := bind_ok h
    obtain ⟨q2, h2, h⟩ := bind_ok h
    obtain ⟨q3, h3, h⟩ := bind_ok h
    exact .inl ⟨t1, t2, t3, q1, q2, q3, rfl, resolveReg_ok.mp h1, resolveReg_ok.mp h2, resolveReg_ok.mp h3,
      .inr ⟨rfl, (Except.ok.inj h).symm⟩⟩
  · next t1 t2 =>
    obtain ⟨q1, h1, h⟩ := bind_ok h
    obtain ⟨q2, h2, h⟩ := bind_ok h
    exact .inr (.inl ⟨t1, t2, q1, q2, rfl, rfl, resolveReg_ok.mp h1, resolveReg_ok.mp h2,
      (Except.ok.inj h).symm⟩)
  · next t1 =>
    obtain ⟨a, h1, h⟩ := bind_ok h
    exact .inr (.inr ⟨t1, a, rfl, rfl, resolveLabel_ok.mp h1, (Except.ok.inj h).symm⟩)
  · cases h

/-- If ENC answers a word, then the first token is a mnemonic, its operands resolve to an instruction, and the word is
that instruction's. -/
theorem enc_ok {tokens : List Text} {labels : LabelTable} {line : Nat} {w : Word}
    (h : enc tokens labels line = .ok w) :
    ∃ t ops m i, tokens = t :: ops ∧ lower t = Mnemonic.text m ∧ resolveOperands m ops labels line = .ok i ∧
      w = encodeWord i := by
  obtain ⟨i, hr, hw⟩ := map_ok h
  unfold resolve at hr
  split at hr
  · cases hr
  · next t ops =>
    split at hr
    · cases hr
    · next m hm => exact ⟨t, ops, m, i, rfl, mnemonicOfToken_some.mp hm, hr, hw.symm⟩

/-! ## The two passes -/

@[simp] theorem pass1_nil (line next : Nat) (labels : LabelTable) : pass1 [] line next labels = .ok (labels, []) := rfl

theorem pass1_skipped {l : Text} (h : skipped l = true) (ls : List Text) (line next : Nat) (labels : LabelTable) :
    pass1 (l :: ls) line next labels = pass1 ls (line + 1) next labels := by
  simp [pass1, h]

/-- If pass 1 accepts a line, then the address is in range, the line's label, if any, was not bound before, and the rest
goes on with the next address and the label bound. -/
theorem pass1_accepted {l : Text} (hs : skipped l = false) {ls : List Text} {line next : Nat}
    {labels : LabelTable} {r : LabelTable × List Accepted} (h : pass1 (l :: ls) line next labels = .ok r) :
    next < Config.imemWords ∧
      ∃ r', r = (r'.1, ⟨next, (splitLabel (split l separator)).2, line⟩ :: r'.2) ∧
        (((splitLabel (split l separator)).1 = none ∧ pass1 ls (line + 1) (next + 1) labels = .ok r') ∨
         (∃ name, (splitLabel (split l separator)).1 = some name ∧ lookupLabel labels name = none ∧
            pass1 ls (line + 1) (next + 1) ((name, BitVec.ofNat 6 next) :: labels) = .ok r')) := by
  simp only [pass1, hs, Bool.false_eq_true, if_false] at h
  split at h
  · cases h
  · next hn =>
    refine ⟨by omega, ?_⟩
    generalize splitLabel (split l separator) = q at h ⊢
    obtain ⟨o, toks⟩ := q
    cases o with
    | none =>
      obtain ⟨r', h1, h2⟩ := map_ok h
      exact ⟨r', h2.symm, .inl ⟨rfl, h1⟩⟩
    | some name =>
      simp only at h
      split at h
      · cases h
      · next hl =>
        obtain ⟨r', h1, h2⟩ := map_ok h
        exact ⟨r', h2.symm, .inr ⟨name, rfl, by simpa using hl, h1⟩⟩

theorem numberedFrom_skipped {l : Text} (h : skipped l = true) (n : Nat) (ls : List Text) :
    numberedFrom n (l :: ls) = numberedFrom (n + 1) ls := by
  simp [numberedFrom, h]

theorem numberedFrom_accepted {l : Text} (h : skipped l = false) (n : Nat) (ls : List Text) :
    numberedFrom n (l :: ls) = (l, n) :: numberedFrom (n + 1) ls := by
  simp [numberedFrom, h]

/-- Without their numbers, the numbered lines are the accepted lines. -/
theorem numberedFrom_fst (n : Nat) (ls : List Text) : (numberedFrom n ls).map Prod.fst = acceptedLines ls := by
  induction ls generalizing n with
  | nil => rfl
  | cons l ls ih =>
    cases h : skipped l with
    | true => rw [numberedFrom_skipped h, ih]; simp [acceptedLines, h]
    | false => rw [numberedFrom_accepted h, List.map_cons, ih]; simp [acceptedLines, h]

@[simp] theorem pass2_nil (labels : LabelTable) : pass2 labels [] = .ok [] := rfl

/-- If pass 2 answers words, then ENC answered one for each accepted line, in order. -/
theorem pass2_cons_ok {labels : LabelTable} {a : Accepted} {rest : List Accepted} {ws : List Word}
    (h : pass2 labels (a :: rest) = .ok ws) :
    ∃ w ws', ws = w :: ws' ∧ enc a.tokens labels a.line = .ok w ∧ pass2 labels rest = .ok ws' := by
  obtain ⟨w, h1, h⟩ := bind_ok h
  obtain ⟨ws', h2, h⟩ := bind_ok h
  exact ⟨w, ws', (Except.ok.inj h).symm, h1, h2⟩

/-- If the assembler answers words, then pass 1 answered a label table and accepted lines, and pass 2 their words. -/
theorem assemble_ok {lines : List Text} {ws : List Word} (h : assemble lines = .ok ws) :
    ∃ labels accepted, pass1 lines 1 0 [] = .ok (labels, accepted) ∧ pass2 labels accepted = .ok ws := by
  unfold assemble at h
  split at h
  · cases h
  · next labels accepted hp => exact ⟨labels, accepted, hp, h⟩

end Sys2Proof.Machine
end

