-- ==== Sys2Proof/Laws/ObjectFile.lean ====
section
/-! SUPPORT. The object reader, said once: what it can answer. -/

namespace Sys2Proof.Machine

@[simp] theorem readBody_nil (n : Nat) : readBody n [] = .ok [] := rfl

/-- If the body reader answers words, the line was within the bound and was a word, and the rest was read after it. -/
theorem readBody_cons_ok {n : Nat} {l : Text} {ls : List Text} {ws : List Word} (h : readBody n (l :: ls) = .ok ws) :
    n < Config.imemWords ∧ ∃ w ws', ws = w :: ws' ∧ parseWord l = some w ∧ readBody (n + 1) ls = .ok ws' := by
  unfold readBody at h
  split at h
  · cases h
  · next hn =>
    split at h
    · cases h
    · next w hw =>
      obtain ⟨ws', h1, h2⟩ := map_ok h
      exact ⟨by omega, w, ws', h2.symm, hw, h1⟩

/-- If the reader answers words, the first line was the header and the body gave the words. -/
theorem readObject_ok {file : Text} {ws : List Word} (h : readObject file = .ok ws) :
    ∃ ls, cutLines file = objectHeader :: ls ∧ readBody 0 ls = .ok ws := by
  unfold readObject at h
  split at h
  · cases h
  · next l ls hc =>
    split at h
    · next hl => exact ⟨ls, by rw [hc, hl], h⟩
    · cases h

@[simp] theorem openFile_none {α : Type} : openFile (none : Option α) = .error .ioError := rfl
@[simp] theorem openFile_some {α : Type} (contents : α) : openFile (some contents) = .ok contents := rfl

@[simp] theorem readFile_none : readFile none = .error .ioError := rfl
@[simp] theorem readFile_some (text : Text) : readFile (some text) = readObject text := rfl

/-- If a source file is assembled to a text, then it opened, its lines assemble, the destination can be written, and the
text is the object file of the words. -/
theorem assembleFile_ok {canWrite : Bool} {source : Option (List Text)} {text : Text}
    (h : assembleFile canWrite source = .ok text) :
    ∃ lines ws, source = some lines ∧ assemble lines = .ok ws ∧ canWrite = true ∧ text = writeObject ws := by
  cases source with
  | none => cases h
  | some lines =>
    simp only [assembleFile, openFile_some] at h
    split at h
    · cases h
    · next ws hw =>
      split at h
      · next hc => cases h; exact ⟨lines, ws, rfl, hw, hc, rfl⟩
      · cases h

/-- If a load answers a machine, it is that of the words read. -/
theorem loadFile_ok {file : Option Text} {s : State} (h : loadFile file = .ok s) :
    ∃ ws, readFile file = .ok ws ∧ s = State.loaded ws := by
  obtain ⟨ws, h1, h2⟩ := map_ok h
  exact ⟨ws, h1, h2.symm⟩

end Sys2Proof.Machine
end

