-- ==== Sys2Proof/Laws/PerInstr.lean ====
section
/-! SUPPORT. Facts about every instruction as text, one lemma per constructor. -/

namespace Sys2Proof.Laws

/-- The top two bits of an instruction's word are the code of its mnemonic: the opcode field alone selects the
instruction (R51, R59, R72). -/
def OpcodeField.Statement (i : Instr) : Prop := (encodeWord i).extractLsb' 6 2 = opcodeCode i.mnemonic

theorem OpcodeField.add (rn rm rd : Reg) : OpcodeField.Statement (.add rn rm rd) := by
  cases rn <;> cases rm <;> cases rd <;> rfl

theorem OpcodeField.and (rn rm rd : Reg) : OpcodeField.Statement (.and rn rm rd) := by
  cases rn <;> cases rm <;> cases rd <;> rfl

theorem OpcodeField.not (rd rn : Reg) : OpcodeField.Statement (.not rd rn) := by
  cases rd <;> cases rn <;> rfl

theorem OpcodeField.bnz (addr : Addr) : OpcodeField.Statement (.bnz addr) := by
  unfold OpcodeField.Statement
  revert addr
  decide

end Sys2Proof.Laws
end

