-- ==== Sys2Proof/Laws/Step.lean ====
section
/-! SUPPORT. Said once: what each instruction does, what a fetch can answer, what a step can do. -/

namespace Sys2Proof.Machine

/-- If `exec` answers a next state, then an arithmetic instruction finished with its result in its destination, or a
`bnz` fell through with `Z` set, or it jumped with `Z` clear. -/
theorem exec_cases {i : Instr} {s t : State} (h : exec i s = .next t) :
    (∃ rd v, destReg i = some rd ∧ t = aluDone s rd v) ∨
    (∃ a, i = .bnz a ∧ s.z = true ∧ t = advance s) ∨
    (∃ a, i = .bnz a ∧ s.z = false ∧ t = jump s a) := by
  cases i with
  | add rn rm rd => exact .inl ⟨rd, _, rfl, (Host.Outcome.next.inj h).symm⟩
  | and rn rm rd => exact .inl ⟨rd, _, rfl, (Host.Outcome.next.inj h).symm⟩
  | not rd rn => exact .inl ⟨rd, _, rfl, (Host.Outcome.next.inj h).symm⟩
  | bnz a =>
    have ht := (Host.Outcome.next.inj h).symm
    cases hz : s.z with
    | true => exact .inr (.inl ⟨a, rfl, rfl, by simpa [hz] using ht⟩)
    | false => exact .inr (.inr ⟨a, rfl, rfl, by simpa [hz] using ht⟩)

theorem fetch_ok {s : State} {w : Word} (h : fetch s = .ok w) :
    s.pc.toNat < s.len ∧ Memory.read s.imem s.pc.toNat = some w := by
  unfold fetch at h
  split at h
  · cases h
  · next hh =>
    split at h
    · next hr =>
      cases h
      exact ⟨(not_halted_iff s).mp (by simpa using hh), hr⟩
    · cases h

/-- If a fetch answers no word, the machine is Halted, or memory lists no word at `pc`. -/
theorem fetch_error {s : State} {f : Fault} (h : fetch s = .error f) :
    (f = .halted ∧ s.len ≤ s.pc.toNat) ∨ (f = .fetchUnloaded ∧ Memory.read s.imem s.pc.toNat = none) := by
  unfold fetch at h
  split at h
  · next hh => cases h; exact .inl ⟨rfl, (halted_iff s).mp hh⟩
  · split at h
    · cases h
    · next hr => cases h; exact .inr ⟨rfl, hr⟩

theorem fetch_of_read {s : State} {w : Word} (hp : s.pc.toNat < s.len)
    (hr : Memory.read s.imem s.pc.toNat = some w) : fetch s = .ok w := by
  simp [fetch, (not_halted_iff s).mpr hp, hr]

/-- If a step answers a next state, then it fetched a loaded word below `LEN` and executed what that word decodes to. -/
theorem step_next {s t : State} (h : step s = .next t) :
    ∃ w, s.pc.toNat < s.len ∧ Memory.read s.imem s.pc.toNat = some w ∧ exec (decodeWord w) s = .next t := by
  unfold step at h
  cases hf : fetch s with
  | error f => rw [hf] at h; cases h
  | ok w =>
    rw [hf] at h
    exact ⟨w, (fetch_ok hf).1, (fetch_ok hf).2, h⟩

theorem step_of_fetch {s : State} {w : Word} (h : fetch s = .ok w) : step s = exec (decodeWord w) s := by
  simp [step, h]

theorem setWidth_toNat (a : Addr) : (a.setWidth 7).toNat = a.toNat := by
  simp only [BitVec.toNat_setWidth]; have := a.isLt; omega

end Sys2Proof.Machine
end

