-- ==== Sys2Proof/Laws/Run.lean ====
section
/-! SUPPORT. The run loop's equations, and steps in sequence. -/

namespace Sys2Proof.Machine

@[simp] theorem runLoop_zero (d : Bool) (c : Nat) (s : State) : runLoop d 0 c s = ⟨s, c, []⟩ := rfl

theorem runLoop_halted (d : Bool) (n c : Nat) {s : State} (h : s.halted = true) : runLoop d n c s = ⟨s, c, []⟩ := by
  cases n with
  | zero => rfl
  | succ n => simp [runLoop, h]

/-- If the step answers a next state, one cycle of the budget is used, and its report stands first. -/
theorem runLoop_next (d : Bool) (n c : Nat) {s t : State} (h : step s = .next t) :
    runLoop d (n + 1) c s =
      { runLoop d n (c + 1) t with reports := report d (c + 1) t :: (runLoop d n (c + 1) t).reports } := by
  obtain ⟨w, hp, -, -⟩ := step_next h
  simp [runLoop, (not_halted_iff s).mpr hp, h]

/-- If the step answers no next state, the run ends there. -/
theorem runLoop_stuck (d : Bool) (n c : Nat) {s : State} (h : ∀ t, step s ≠ .next t) :
    runLoop d n c s = ⟨s, c, []⟩ := by
  cases n with
  | zero => rfl
  | succ n =>
    unfold runLoop
    split
    · rfl
    · split
      · next t ht => exact absurd ht (h t)
      · rfl
      · rfl

/-- The state after a number of steps is the only one. -/
theorem Steps.unique {n : Nat} {s t u : State} (h : Steps n s t) (h' : Steps n s u) : t = u := by
  induction h with
  | zero s => cases h'; rfl
  | succ h1 _ ih =>
    cases h' with
    | succ h2 h3 =>
      rw [h1] at h2
      cases h2
      exact ih h3

/-- A machine that steps is Running. -/
theorem running_of_step {s t : State} (h : step s = .next t) : s.halted = false := by
  obtain ⟨w, hp, -, -⟩ := step_next h
  exact (not_halted_iff s).mpr hp

end Sys2Proof.Machine
end

