-- ==== Sys2Proof/Tests/Slice0.lean ====
section
/-! SUPPORT. The model's own tests. Expected values come from `95_test_vectors.md` (named at each test) or are worked by
hand from the rules. The witnesses at the end show a concrete input that meets the hypotheses of each statement. -/

namespace Sys2Proof.Tests

open Sys2Proof Sys2Proof.Machine

/-! ## The checks on a program refuse what they should -/

/-- 65 words do not fit (R30). -/
theorem test_program_too_long_refused : Program.fits (List.replicate 65 (.not .r0 .r0)) = false := by decide
/-- The program of section 2.9 with `LEN` = 1 and a `bnz` to 5 branches outside itself (R113). -/
theorem test_branch_outside_refused : Program.targetsInside [.bnz 5] = false := by decide
theorem test_ill_formed_refused : Program.wellFormed [.bnz 1] = false := by decide
/-- The program P1 of section 3 is well formed. -/
theorem test_scenario_well_formed : Program.wellFormed [.add .r0 .r1 .r2, .bnz 0] = true := by decide

/-! ## Decoding words written out from the encodings (section 2.1) -/

theorem test_decode_add : decodeWord 0b00_01_10_11#8 = .add .r1 .r2 .r3 := by decide
theorem test_decode_and : decodeWord 0b01_10_11_00#8 = .and .r2 .r3 .r0 := by decide
theorem test_decode_not : decodeWord 0b10_01_00_00#8 = .not .r1 .r0 := by decide
theorem test_decode_not_f3_ignored : decodeWord 0b10_01_00_11#8 = .not .r1 .r0 := by decide
theorem test_decode_bnz : decodeWord 0b11_10_01_00#8 = .bnz 36#6 := by decide
theorem test_decode_bnz_top : decodeWord 0xFF#8 = .bnz 63#6 := by decide
theorem test_decode_nothing_rejected : decode [] = .error .noWord := by decide
theorem test_decode_leaves_the_rest : decode [0x06#8, 0xC0#8] = .ok (.add .r0 .r1 .r2, [0xC0#8]) := by decide
/-- The DEC and DECX columns of section 2.1 for `0x93`. -/
theorem test_record_and_control :
    decRecord 0x93#8 = ⟨.not, [.reg .r1, .reg .r0]⟩ ∧ decControl 0x93#8 = .alu .not 0 none 1 := by decide
theorem test_control_rows : decControl 0x1B#8 = .alu .add 1 (some 2) 3 ∧ decControl 0xC5#8 = .branch 5 := by decide
theorem test_table_word : decodeTableWord 8 0x5B = some (.and .r1 .r2 .r3) := by decide
/-- Section 2.2. -/
theorem test_encode_words :
    encodeWord (.and .r3 .r3 .r0) = 0x7C#8 ∧ encodeWord (.not .r3 .r2) = 0xB8#8 ∧ encodeWord (.bnz 36#6) = 0xE4#8 := by
  decide

/-! ## One step on a small state -/

/-- A state with one word loaded at address 0. -/
def one (w : Word) (pc : PcWord) (x : RegFile) (z : Bool) (bo : Option Addr) : State :=
  ⟨pc, x, z, bo, [(0, w)], 1⟩

/-- 200 + 100 = 44 (section 2.6), destination written last. -/
theorem test_add_wraps :
    execAdd .r0 .r1 .r2 (one 0x06 0 ⟨200, 100, 7, 9⟩ true (some 3))
      = .next (one 0x06 1 ⟨200, 100, 44, 9⟩ false none) := rfl
/-- `add r1 r1 r1` with 128 gives 0 and sets `Z` (section 2.6). -/
theorem test_add_same_register : step (one 0x15 0 ⟨0, 128, 0, 0⟩ false none) = .next (one 0x15 1 ⟨0, 0, 0, 0⟩ true none) := rfl
/-- 0xCC AND 0xAA = 0x88 (section 2.7). -/
theorem test_and_bits : step (one 0x5B 0 ⟨1, 0xCC, 0xAA, 2⟩ true none) = .next (one 0x5B 1 ⟨1, 0xCC, 0xAA, 0x88⟩ false none) := rfl
/-- Disjoint bits give 0 and set `Z` (section 2.7). -/
theorem test_and_disjoint : step (one 0x40 0 ⟨0, 0, 0, 0⟩ false none) = .next (one 0x40 1 ⟨0, 0, 0, 0⟩ true none) := rfl
/-- `not r1 r0` of 0 is 255: the destination is f1 (section 2.8). -/
theorem test_not_destination_is_f1 : step (one 0x90 0 ⟨0, 5, 0, 0⟩ true none) = .next (one 0x90 1 ⟨0, 255, 0, 0⟩ false none) := rfl
/-- `not r3 r3` of 255 is 0 and sets `Z` (section 2.8). -/
theorem test_not_in_place : step (one 0xBC 0 ⟨0, 0, 0, 255⟩ false none) = .next (one 0xBC 1 ⟨0, 0, 0, 0⟩ true none) := rfl
/-- Section 2.9, first row: taken, backward, from 6 to 5. -/
theorem test_bnz_taken : execBnz 5 (one 0 6 ⟨1, 2, 3, 4⟩ false none) = .next (one 0 5 ⟨1, 2, 3, 4⟩ false (some 6)) := rfl
/-- Section 2.9: a fall-through at 63 gives 64 and clears the marker. -/
theorem test_bnz_falls_to_64 : execBnz 63 (one 0 63 ⟨0, 0, 0, 0⟩ true (some 9)) = .next (one 0 64 ⟨0, 0, 0, 0⟩ true none) := rfl
/-- A branch at reset is taken (R174), and here leaves the program (section 2.9, `LEN` = 1). -/
theorem test_bnz_at_reset : step (State.loaded [0xC5#8]) = .next (one 0xC5 5 ⟨0, 0, 0, 0⟩ false (some 0)) := rfl
theorem test_halted_has_no_step : step State.reset = .fault .halted := rfl
theorem test_fetch_word_runs_first :
    step (State.reset.withFetchWord 8 0x90) = .next (one 0x90 1 ⟨0, 255, 0, 0⟩ false none) := rfl
/-- `withFetchWord` replaces the word at `pc` of a loaded program. -/
theorem test_fetch_word_replaces : ((State.loaded [1, 2]).withFetchWord 8 0x90).imem = [(0, 0x90#8), (1, 2#8)] := rfl

/-! ## Runs of at most two steps -/

/-- Program P1 of section 3 (the document's scenario): final state and shown instructions. -/
theorem test_run_scenario :
    (run true [0x06#8, 0xC0#8] 2).final.pc = 2 ∧ (run true [0x06#8, 0xC0#8] 2).final.z = true ∧
      (run true [0x06#8, 0xC0#8] 20).cycles = 2 ∧
      (run true [0x06#8, 0xC0#8] 2).reports.map Report.shown
        = [some ⟨.add, [.reg .r0, .reg .r1, .reg .r2]⟩, some ⟨.bnz, [.target 0]⟩] := by decide
/-- Section 2.10: a branch beyond the program ends the run after one cycle. -/
theorem test_run_branch_beyond : (run false [0xC5#8] 20).cycles = 1 ∧ (run false [0xC5#8] 20).final.pc = 5 := by decide

/-! ## The encoder (sections 2.2 and 2.3) -/

/-- Text from a string. -/
def tx (s : String) : Text := s.toList

/-- The label table of section 2.2. -/
def labels22 : LabelTable := [(tx "start", 0), (tx "loop", 5), (tx "far", 36), (tx "last", 63), (tx "r1", 7)]

theorem test_enc_successes :
    enc [tx "ADD", tx "R0", tx "R1", tx "R2"] labels22 9 = .ok 0x06#8 ∧
    enc [tx "and", tx "r1", tx "r2", tx "r3"] labels22 9 = .ok 0x5B#8 ∧
    enc [tx "not", tx "r1", tx "r0"] labels22 9 = .ok 0x90#8 ∧
    enc [tx "Bnz", tx "START"] labels22 9 = .ok 0xC0#8 ∧
    enc [tx "bnz", tx "far"] labels22 9 = .ok 0xE4#8 ∧
    enc [tx "bnz", tx "r1"] labels22 9 = .ok 0xC7#8 := by decide
theorem test_enc_opcode_and_arity_errors :
    enc [] labels22 9 = .error (.unknownOpcode [] 9) ∧
    enc [tx "foo", tx "r9"] labels22 9 = .error (.unknownOpcode (tx "foo") 9) ∧
    enc [tx "add", tx "r9", tx "r0"] labels22 9 = .error (.arityError .add 3 2 9) ∧
    enc [tx "not", tx "r1"] labels22 9 = .error (.arityError .not 2 1 9) ∧
    enc [tx "bnz"] labels22 9 = .error (.arityError .bnz 1 0 9) := by decide
theorem test_enc_operand_errors :
    enc [tx "add", tx "r0", tx "r9", tx "zz"] labels22 9 = .error (.invalidRegister (tx "r9") 9) ∧
    enc [tx "add", tx "r0", tx "r1", tx "r01"] labels22 9 = .error (.invalidRegister (tx "r01") 9) ∧
    enc [tx "not", tx "r0", tx "start"] labels22 9 = .error (.invalidRegister (tx "start") 9) ∧
    enc [tx "bnz", tx "5"] labels22 9 = .error (.undefinedLabel (tx "5") 9) ∧
    enc [tx "bnz", tx "start:"] labels22 9 = .error (.undefinedLabel (tx "start:") 9) := by decide

/-! ## The lexer, pass 1 and the assembler (section 2.4) -/

/-- A1. -/
theorem test_split_line :
    split (tx "start:   add r0  r1 r2 ; sum") ' ' = [tx "start:", tx "add", tx "r0", tx "r1", tx "r2"] := by decide
/-- A2. -/
theorem test_split_comment : split (tx "   ; only a comment") ' ' = [] ∧ isComment (tx "   ; only a comment") = true := by
  decide
/-- A3. -/
theorem test_is_label :
    isLabel (tx "start:") = true ∧ isLabel (tx "start") = false ∧ isLabel (tx ":") = true ∧ isLabel [] = false := by decide
/-- A4. -/
theorem test_assemble_skips_comments :
    assemble [tx "x: add r0 r0 r0 ; c", tx "  ; only comment", [], tx " bnz X"] = .ok [0x00#8, 0xC0#8] := by decide
/-- A7. -/
theorem test_assemble_duplicate :
    assemble [tx "a: add r0 r0 r0", tx "A: add r0 r0 r0"] = .error (.duplicateLabel (tx "a") 2) := by decide
/-- A8. -/
theorem test_assemble_label_only :
    assemble [tx "lbl:", tx " add r0 r0 r0"] = .error (.unknownOpcode [] 1) := by decide
/-- A9. -/
theorem test_assemble_forward : assemble [tx "bnz end", tx "end: add r0 r0 r0"] = .ok [0xC1#8, 0x00#8] := by decide
/-- A10. -/
theorem test_assemble_pass1_first :
    assemble [tx "add r0 r0 r0", tx "bnz nowhere", tx "dup: not r0 r0", tx "dup: not r0 r0"]
      = .error (.duplicateLabel (tx "dup") 4) := by decide

/-- R142: `IOError` on a source that does not open, and, only when the source assembles, on the destination. -/
theorem test_assemble_file :
    assembleFile true none = .error .ioError ∧ assembleFile false (some [tx "not r1 r0"]) = .error .ioError ∧
    assembleFile false (some [tx "q"]) = .error (.unknownOpcode (tx "q") 1) ∧
    assembleFile true (some [tx "not r1 r0"]) = .ok (tx "v2.0 raw\n90\n") := by decide

/-! ## The object file (section 2.5) -/

/-- O1 and O3, and a last line without a line feed. -/
theorem test_read_object :
    readObject (tx "v2.0 raw\n06\nC0\n") = .ok [0x06#8, 0xC0#8] ∧ readObject (tx "v2.0 raw\nc5") = .ok [0xC5#8] ∧
      readObject (tx "v2.0 raw") = .ok [] := by decide
/-- O4 to O8, and the empty file. -/
theorem test_read_object_errors :
    readObject (tx "V2.0 raw\n06") = .error (.badHeader (tx "V2.0 raw")) ∧
    readObject (tx "v2.0 raw\n6") = .error (.malformedWord (tx "6")) ∧
    readObject (tx "v2.0 raw\n0G") = .error (.malformedWord (tx "0G")) ∧
    readObject (tx "v2.0 raw\n06\n\nC0") = .error (.malformedWord []) ∧
    readObject (tx "v2.0 raw\n006") = .error (.malformedWord (tx "006")) ∧
    readObject [] = .error (.badHeader []) := by decide
/-- O11. -/
theorem test_write_object : objectLines [0x0A#8, 0xF0#8] = [tx "v2.0 raw", tx "0A", tx "F0"] := by decide

/-! ## Witnesses: inputs that meet the hypotheses of the statements -/

/-- The states with one word loaded meet the invariant. -/
theorem inv_one (w : Word) (pc : PcWord) (x : RegFile) (z : Bool) (bo : Option Addr) (h : pc.toNat ≤ 64) :
    StateInv (one w pc x z bo) := by
  refine ⟨⟨rfl, show 1 ≤ 64 by decide, fun a => ?_⟩, h⟩
  by_cases ha : 0 = a
  · simp [one, Memory.read, ← ha]
  · simp [one, Memory.read, ha]; omega

/-- A full memory of 64 words `and r0 r0 r0` (program P5), with `pc` at its last address. -/
def full (z : Bool) : State := ⟨63, ⟨0, 0, 0, 0⟩, z, none, Memory.ofWords 0 (List.replicate 64 0x40#8), 64⟩

theorem inv_full (z : Bool) : StateInv (full z) := by
  refine ⟨⟨Memory.wf_ofWords 0 _, Nat.le_refl 64, fun a => ?_⟩, by decide +revert⟩
  have := Memory.read_ofWords 0 (List.replicate 64 0x40#8) a
  rw [Nat.zero_add] at this
  simp only [full, this, List.getElem?_replicate]
  split <;> simp <;> omega

theorem witness_EncodeOfDecode :
    decode [0x93#8, 0xC0#8] = .ok (.not .r1 .r0, [0xC0#8]) ∧ isNotWithF3 0x93#8 = true ∧
      decode [0x06#8] = .ok (.add .r0 .r1 .r2, []) ∧ isNotWithF3 0x06#8 = false := by decide
theorem witness_Load : (List.replicate 64 0x40#8).length ≤ 64 ∧ ([] : List Word).length ≤ 64 := by decide
theorem witness_AluPcClause :
    (one 0 64 ⟨0, 0, 0, 0⟩ false none).pc.toNat ≤ 64 ∧ (one 0 0 ⟨0, 0, 0, 0⟩ false none).pc.toNat ≤ 64 := by decide
theorem witness_Bnz :
    ((full true).z = true ∧ (full true).pc.toNat ≤ 63) ∧ ((full false).z = false ∧ (full false).pc.toNat ≤ 63) := by decide
theorem witness_ZeroFlag :
    destReg (.add .r1 .r1 .r1) = some .r1 ∧
      exec (.add .r1 .r1 .r1) (one 0x15 0 ⟨0, 128, 0, 0⟩ false none) = .next (one 0x15 1 ⟨0, 0, 0, 0⟩ true none) :=
  ⟨rfl, rfl⟩
theorem witness_InstructionFrame :
    exec (.bnz 5) (one 0 6 ⟨1, 2, 3, 4⟩ false none) = .next (one 0 5 ⟨1, 2, 3, 4⟩ false (some 6)) ∧
      destReg (.bnz 5) = none ∧
      exec (.not .r1 .r0) (one 0 6 ⟨0, 2, 3, 4⟩ true none) = .next (one 0 7 ⟨0, 255, 3, 4⟩ false none) ∧
      destReg (.not .r1 .r0) ≠ some .r2 := ⟨rfl, rfl, rfl, by decide⟩
theorem witness_ArithmeticLaws :
    (exec (.not .r1 .r0) (one 0 0 ⟨7, 0, 0, 0⟩ false none) = .next (one 0 1 ⟨7, 248, 0, 0⟩ false none) ∧
      exec (.not .r1 .r1) (one 0 1 ⟨7, 248, 0, 0⟩ false none) = .next (one 0 2 ⟨7, 7, 0, 0⟩ false none) ∧
      Reg.r1 ≠ Reg.r0 ∧
      exec (.add .r0 .r1 .r2) (one 0 1 ⟨7, 248, 0, 0⟩ false none) = .next (one 0 2 ⟨7, 248, 255, 0⟩ false none)) ∧
    (Reg.r3 ≠ Reg.r0 ∧ Reg.r3 ≠ Reg.r2 ∧
      exec (.add .r0 .r1 .r3) (one 0 0 ⟨1, 2, 3, 0⟩ false none) = .next (one 0 1 ⟨1, 2, 3, 3⟩ false none) ∧
      exec (.add .r3 .r2 .r3) (one 0 1 ⟨1, 2, 3, 3⟩ false none) = .next (one 0 2 ⟨1, 2, 3, 6⟩ false none) ∧
      exec (.add .r1 .r2 .r3) (one 0 0 ⟨1, 2, 3, 0⟩ false none) = .next (one 0 1 ⟨1, 2, 3, 5⟩ false none) ∧
      exec (.add .r0 .r3 .r3) (one 0 1 ⟨1, 2, 3, 5⟩ false none) = .next (one 0 2 ⟨1, 2, 3, 6⟩ false none)) :=
  ⟨⟨rfl, rfl, by decide, rfl⟩, by decide, by decide, rfl, rfl, rfl, rfl⟩
theorem witness_StepRuns :
    (one 0x90 0 ⟨0, 0, 0, 0⟩ false none).pc.toNat < (one 0x90 0 ⟨0, 0, 0, 0⟩ false none).len ∧
      Memory.read (one 0x90 0 ⟨0, 0, 0, 0⟩ false none).imem 0 = some 0x90#8 ∧
      decode [0x90#8] = .ok (.not .r1 .r0, []) := by decide
theorem witness_RunningAndHalted :
    (StateInv (full false) ∧ (full false).pc.toNat < (full false).len) ∧
      StateInv (one 0 1 ⟨0, 0, 0, 0⟩ false none) ∧
      (one 0 1 ⟨0, 0, 0, 0⟩ false none).len ≤ (one 0 1 ⟨0, 0, 0, 0⟩ false none).pc.toNat :=
  ⟨⟨inv_full false, by decide⟩, inv_one _ _ _ _ _ (by decide), by decide⟩
/-- At the top of a full memory the step goes to 64, the boundary of the invariant. -/
theorem witness_StepAtTheTop : StateInv (full false) ∧ ∃ t, step (full false) = .next t ∧ t.pc = 64 :=
  ⟨inv_full false, _, rfl, rfl⟩
/-- For the statements on a step from a state that meets the invariant: an arithmetic step, a taken branch, and a branch
not taken. -/
theorem witness_StepFromInvariant :
    (StateInv (one 0x90 0 ⟨0, 0, 0, 0⟩ false none) ∧
      step (one 0x90 0 ⟨0, 0, 0, 0⟩ false none) = .next (one 0x90 1 ⟨0, 255, 0, 0⟩ false none) ∧
      Memory.read (one 0x90 0 ⟨0, 0, 0, 0⟩ false none).imem 0 = some 0x90#8) ∧
    (StateInv (one 0xC5 0 ⟨0, 0, 0, 0⟩ false none) ∧
      step (one 0xC5 0 ⟨0, 0, 0, 0⟩ false none) = .next (one 0xC5 5 ⟨0, 0, 0, 0⟩ false (some 0))) ∧
    StateInv (one 0xC5 0 ⟨0, 0, 0, 0⟩ true (some 9)) ∧
      step (one 0xC5 0 ⟨0, 0, 0, 0⟩ true (some 9)) = .next (one 0xC5 1 ⟨0, 0, 0, 0⟩ true none) :=
  ⟨⟨inv_one _ _ _ _ _ (by decide), rfl, rfl⟩, ⟨inv_one _ _ _ _ _ (by decide), rfl⟩, inv_one _ _ _ _ _ (by decide), rfl⟩
/-- A target equal to `LEN`, the boundary. -/
theorem witness_BranchBeyond :
    (one 0xC1 0 ⟨0, 0, 0, 0⟩ false none).pc.toNat < 1 ∧
      Memory.read (one 0xC1 0 ⟨0, 0, 0, 0⟩ false none).imem 0 = some 0xC1#8 ∧ decodeWord 0xC1#8 = .bnz 1#6 ∧
      (one 0xC1 0 ⟨0, 0, 0, 0⟩ false none).z = false ∧ (one 0xC1 0 ⟨0, 0, 0, 0⟩ false none).len ≤ (1#6).toNat := by decide
theorem steps_one : Steps 1 (one 0x90 0 ⟨0, 0, 0, 0⟩ false none) (one 0x90 1 ⟨0, 255, 0, 0⟩ false none) :=
  .succ (t := one 0x90 1 ⟨0, 255, 0, 0⟩ false none) rfl (.zero _)
theorem witness_Run :
    StateInv (one 0x90 0 ⟨0, 0, 0, 0⟩ false none) ∧
      Steps 1 (one 0x90 0 ⟨0, 0, 0, 0⟩ false none) (one 0x90 1 ⟨0, 255, 0, 0⟩ false none) ∧
      (one 0x90 1 ⟨0, 255, 0, 0⟩ false none).halted = true ∧
      0 < (runLoop true 5 0 (one 0x90 0 ⟨0, 0, 0, 0⟩ false none)).cycles :=
  ⟨inv_one _ _ _ _ _ (by decide), steps_one, rfl, by decide⟩
/-- An arithmetic first cycle, and a taken branch (to itself) as the second cycle. -/
theorem witness_ReportShown :
    (StateInv (one 0x90 0 ⟨0, 0, 0, 0⟩ false none) ∧ 0 < (runLoop true 1 0 (one 0x90 0 ⟨0, 0, 0, 0⟩ false none)).cycles ∧
      Steps 0 (one 0x90 0 ⟨0, 0, 0, 0⟩ false none) (one 0x90 0 ⟨0, 0, 0, 0⟩ false none) ∧
      step (one 0x90 0 ⟨0, 0, 0, 0⟩ false none) = .next (one 0x90 1 ⟨0, 255, 0, 0⟩ false none)) ∧
    StateInv (one 0xC0 0 ⟨0, 0, 0, 0⟩ false none) ∧ 1 < (runLoop true 2 0 (one 0xC0 0 ⟨0, 0, 0, 0⟩ false none)).cycles ∧
      Steps 1 (one 0xC0 0 ⟨0, 0, 0, 0⟩ false none) (one 0xC0 0 ⟨0, 0, 0, 0⟩ false (some 0)) ∧
      step (one 0xC0 0 ⟨0, 0, 0, 0⟩ false (some 0)) = .next (one 0xC0 0 ⟨0, 0, 0, 0⟩ false (some 0)) :=
  ⟨⟨inv_one _ _ _ _ _ (by decide), by decide, .zero _, rfl⟩, inv_one _ _ _ _ _ (by decide), by decide,
    .succ (t := one 0xC0 0 ⟨0, 0, 0, 0⟩ false (some 0)) rfl (.zero _), rfl⟩
theorem witness_BranchToItself :
    StateInv (one 0xC0 0 ⟨0, 0, 0, 0⟩ false none) ∧ (0 : PcWord).toNat < 1 ∧
      Memory.read (one 0xC0 0 ⟨0, 0, 0, 0⟩ false none).imem 0 = some 0xC0#8 ∧ decodeWord 0xC0#8 = .bnz 0#6 ∧
      (0#6).toNat = (0 : PcWord).toNat ∧ (one 0xC0 0 ⟨0, 0, 0, 0⟩ false none).z = false :=
  ⟨inv_one _ _ _ _ _ (by decide), by decide, by decide, by decide, by decide, by decide⟩
theorem witness_LoadErrors :
    readFile none = .error .ioError ∧ readFile (some (tx "v2.0 raw\n06\n")) = .ok [0x06#8] := by decide
theorem witness_EncPacks :
    (lower (tx "R1") = Reg.text .r1 ∧ lower (tx "r2") = Reg.text .r2 ∧ lower (tx "R3") = Reg.text .r3) ∧
      lower (tx "ADD") = Mnemonic.text .add ∧ lower (tx "And") = Mnemonic.text .and ∧
      lower (tx "not") = Mnemonic.text .not ∧ lower (tx "BNZ") = Mnemonic.text .bnz ∧
      lookupLabel labels22 (lower (tx "Last")) = some 63#6 := by decide
theorem witness_EncodedLines : enc [tx "not", tx "r1", tx "r0"] [] 1 = .ok 0x90#8 := by decide
theorem witness_RoundTripConverse :
    (isNotWithF3 0xC5#8 = false ∧ (decRecord 0xC5#8).operands = [.target 5#6] ∧
      lookupLabel labels22 (lower (tx "LOOP")) = some 5#6) ∧
    isNotWithF3 0x06#8 = false ∧ (decRecord 0x06#8).operands = [.reg .r0, .reg .r1, .reg .r2] := by decide
theorem witness_EncIgnoresCase :
    [tx "NOT", tx "R1", tx "r0"].map lower = [tx "not", tx "r1", tx "R0"].map lower ∧
      enc [tx "NOT", tx "R1", tx "r0"] [] 1 = .ok 0x90#8 := by decide
theorem witness_EncDependsOnly (n : Text) :
    lookupLabel [(tx "a", 1), (tx "b", 2)] n = lookupLabel [(tx "b", 2), (tx "a", 1)] n := by
  have hab : tx "a" ≠ tx "b" := by decide
  by_cases h : tx "a" = n
  · simp [lookupLabel, ← h, hab.symm]
  · simp [lookupLabel, h]
theorem witness_EncOpcodeThenCount :
    (∀ m : Mnemonic, lower (tx "foo") ≠ m.text) ∧
      lower (tx "not") = Mnemonic.text .not ∧ [tx "r1"].length ≠ arity .not :=
  ⟨fun m => by cases m <;> decide, by decide, by decide⟩
theorem witness_EncLeftmost :
    (lower (tx "add") = Mnemonic.text .add ∧ Mnemonic.add ≠ .bnz ∧
      ([tx "r0"] ++ tx "r9" :: [tx "zz"]).length = arity .add ∧ (∀ b ∈ [tx "r0"], ∃ r : Reg, lower b = r.text) ∧
      ∀ r : Reg, lower (tx "r9") ≠ r.text) ∧
    lower (tx "bnz") = Mnemonic.text .bnz ∧ lookupLabel labels22 (lower (tx "nowhere")) = none := by
  refine ⟨⟨by decide, by decide, by decide, fun b hb => ⟨.r0, ?_⟩, fun r => by cases r <;> decide⟩, by decide, by decide⟩
  rw [List.mem_singleton.mp hb]
  decide
theorem witness_Split :
    ';' ∉ tx "add r0" ∧ ' ' ≠ ';' ∧ ';' ∉ tx "add" ∧ (tx "add" ≠ [] ∧ ' ' ∉ tx "add" ∧ ';' ∉ tx "add") := by decide
theorem witness_AcceptedLine : skipped (tx "\tbnz x ; c") = false := by decide
theorem witness_PassOne :
    pass1 [tx "; c", tx "a: not r0 r1", tx " bnz A"] 1 0 []
      = .ok ([(tx "a", 0#6)], [⟨0, [tx "not", tx "r0", tx "r1"], 2⟩, ⟨1, [tx "bnz", tx "A"], 3⟩]) := by decide
/-- Success at its boundary: 64 accepted lines, no label bound twice. -/
theorem witness_PassOneSucceeds :
    (numberedFrom 1 (List.replicate 64 (tx "q"))).length ≤ 64 ∧
      (labelsOf (numberedFrom 1 (List.replicate 64 (tx "q")))).Nodup := by decide
/-- The duplicate clause: the second line binds the first one's label again; the comment before them counts in the line
number. -/
theorem witness_PassOneDuplicate :
    numberedFrom 1 [tx "; c", tx "a: q", tx "A: q"] = [(tx "a: q", 2)] ++ (tx "A: q", 3) :: [] ∧
      labelsOf [(tx "a: q", 2)] = [tx "a"] ∧ labelOf (tx "A: q") = some (tx "a") ∧
      pass1 [tx "; c", tx "a: q", tx "A: q"] 1 0 [] = .error (.duplicateLabel (tx "a") 3) := by decide
/-- The duplicate clause at its boundary: the 64th accepted line binds the first one's label again, and a 65th follows. -/
theorem witness_PassOneDuplicateAt64 :
    numberedFrom 1 (tx "a: q" :: List.replicate 62 (tx "q") ++ [tx "a: q", tx "q"])
        = numberedFrom 1 (tx "a: q" :: List.replicate 62 (tx "q")) ++ (tx "a: q", 64) :: [(tx "q", 65)] ∧
      (numberedFrom 1 (tx "a: q" :: List.replicate 62 (tx "q"))).length = 63 ∧
      labelsOf (numberedFrom 1 (tx "a: q" :: List.replicate 62 (tx "q"))) = [tx "a"] := by decide
/-- The overflow clause: the 65th accepted line, though it binds the first one's label again. -/
theorem witness_PassOneOverflow :
    numberedFrom 1 (tx "a: q" :: List.replicate 63 (tx "q") ++ [tx "a: q"])
        = numberedFrom 1 (tx "a: q" :: List.replicate 63 (tx "q")) ++ [(tx "a: q", 65)] ∧
      (numberedFrom 1 (tx "a: q" :: List.replicate 63 (tx "q"))).length = 64 ∧
      labelsOf (numberedFrom 1 (tx "a: q" :: List.replicate 63 (tx "q"))) = [tx "a"] := by decide
theorem witness_Assembled : assemble [tx "s: add r0 r1 r2", tx "   bnz s"] = .ok [0x06#8, 0xC0#8] := by decide
theorem witness_AssemblyErrors :
    (pass1 [tx "a: q", tx "a: q"] 1 0 [] = .error (.duplicateLabel (tx "a") 2)) ∧
    (pass1 [tx "not r0 r1", tx "q"] 1 0 []
        = .ok ([], [⟨0, [tx "not", tx "r0", tx "r1"], 1⟩] ++ ⟨1, [tx "q"], 2⟩ :: []) ∧
      enc [tx "not", tx "r0", tx "r1"] [] 1 = .ok 0x84#8 ∧ enc [tx "q"] [] 2 = .error (.unknownOpcode (tx "q") 2)) ∧
    pass1 [tx "not r0 r1"] 1 0 [] = .ok ([], [⟨0, [tx "not", tx "r0", tx "r1"], 1⟩]) :=
  ⟨by decide, ⟨by decide, by decide, by decide⟩, by decide⟩
theorem witness_Lines :
    (∀ l ∈ [tx "v2.0 raw", tx "06"], '\n' ∉ l) ∧ tx "C0" ≠ [] ∧ '\n' ∉ tx "C0" := by decide
theorem witness_ObjectRoundTrip :
    (List.replicate 64 0x40#8).length ≤ 64 ∧ readObject (tx "v2.0 raw\nc5") = .ok [0xC5#8] := by decide
/-- Each clause of the reader's outcomes; the last at its boundary, 64 words and one line more. -/
theorem witness_Reader :
    cutLines [] = [] ∧ (cutLines (tx "v2\n06") = [tx "v2", tx "06"] ∧ tx "v2" ≠ objectHeader) ∧
    (cutLines (tx "v2.0 raw\n06") = objectHeader :: ([tx "06"] ++ []) ∧ [tx "06"].map parseWord = [0x06#8].map some) ∧
    (cutLines (tx "v2.0 raw\n06\n6") = objectHeader :: ([tx "06"] ++ [tx "6"]) ∧ parseWord (tx "6") = none) ∧
    (cutLines (joinLines (objectHeader :: List.replicate 65 (tx "40")))
        = objectHeader :: (List.replicate 64 (tx "40") ++ [tx "40"]) ∧
      (List.replicate 64 (tx "40")).map parseWord = (List.replicate 64 0x40#8).map some ∧
      (List.replicate 64 (tx "40")).length = 64) := by decide

end Sys2Proof.Tests
end

section
/-! SUPPORT. The family of `10_state.md`: what an instruction leaves as it was (R12, R16, R33), when there is a step
(R21, R121), and that the branch-origin marker influences nothing (R18). -/

namespace Sys2Proof.Machine

/-! ## The frame of an instruction -/

/-- R12: a register that is not the destination keeps its value. -/
theorem exec_readReg_of_ne_destReg {i : Instr} {s t : State} (h : exec i s = .next t) {r : Reg}
    (hr : destReg i ≠ some r) : readReg t r = readReg s r := by
  obtain ⟨rd, v, hd, rfl⟩ | ⟨a, -, -, rfl⟩ | ⟨a, -, -, rfl⟩ := exec_cases h
  · have hne : r ≠ rd := fun he => hr (he ▸ hd)
    exact readReg_aluDone_other s v hne
  · exact readReg_advance s r
  · exact readReg_jump s a r

/-- R16: only an instruction with a destination writes `Z`. -/
theorem exec_z_of_no_destReg {i : Instr} {s t : State} (h : exec i s = .next t) (hi : destReg i = none) :
    t.z = s.z := by
  obtain ⟨rd, v, hd, -⟩ | ⟨a, -, -, rfl⟩ | ⟨a, -, -, rfl⟩ := exec_cases h
  · rw [hi] at hd
    cases hd
  · exact advance_z s
  · exact jump_z s a

/-- R33: no instruction writes instruction memory or `LEN`. -/
theorem exec_keeps_program {i : Instr} {s t : State} (h : exec i s = .next t) :
    t.imem = s.imem ∧ t.len = s.len := by
  obtain ⟨rd, v, -, rfl⟩ | ⟨a, -, -, rfl⟩ | ⟨a, -, -, rfl⟩ := exec_cases h
  · exact ⟨aluDone_imem s rd v, aluDone_len s rd v⟩
  · exact ⟨advance_imem s, advance_len s⟩
  · exact ⟨jump_imem s a, jump_len s a⟩

/-- Settles O19, from the three parts of the frame. -/
theorem instructionFrame : Obligations.InstructionFrame := by
  intro i s t h
  obtain ⟨himem, hlen⟩ := exec_keeps_program h
  exact ⟨fun r => exec_readReg_of_ne_destReg h, exec_z_of_no_destReg h, fun a => by rw [himem], himem, hlen⟩

/-! ## Running and Halted -/

/-- Every instruction has a next state in every state: none faults and none is refused (R132, R140). -/
theorem exec_total (i : Instr) (s : State) : ∃ t, exec i s = .next t := by
  cases i with
  | add rn rm rd => exact ⟨_, rfl⟩
  | and rn rm rd => exact ⟨_, rfl⟩
  | not rd rn => exact ⟨_, rfl⟩
  | bnz addr => exact ⟨_, rfl⟩

/-- R34: in a loaded state the fetch of a Running machine finds a word. -/
theorem fetch_of_loaded {s : State} (hs : Loaded s) (hp : s.pc.toNat < s.len) : ∃ w, fetch s = .ok w := by
  obtain ⟨-, -, hlisted⟩ := hs
  obtain ⟨w, hw⟩ := Option.isSome_iff_exists.mp ((hlisted s.pc.toNat).mpr hp)
  exact ⟨w, fetch_of_read hp hw⟩

theorem step_of_running {s : State} (hs : Loaded s) (hp : s.pc.toNat < s.len) : ∃ t, step s = .next t := by
  obtain ⟨w, hw⟩ := fetch_of_loaded hs hp
  rw [step_of_fetch hw]
  exact exec_total (decodeWord w) s

/-- R121, with the answer of the model's choice (log entry 10). -/
theorem step_of_halted {s : State} (hp : s.len ≤ s.pc.toNat) : step s = .fault .halted := by
  simp [step, fetch, (halted_iff s).mpr hp]

/-- Settles O22: Running and Halted are the two sides of `pc < LEN`, and each side has one answer. -/
theorem runningMachinesStepAndHaltedOnesDoNot : Obligations.RunningMachinesStepAndHaltedOnesDoNot := by
  intro s hs
  obtain ⟨hloaded, -⟩ := hs
  rcases Nat.lt_or_ge s.pc.toNat s.len with hp | hp
  case inl =>
    obtain ⟨t, ht⟩ := step_of_running hloaded hp
    simp [ht, hp]
  case inr =>
    have hnot : ¬ s.pc.toNat < s.len := Nat.not_lt.mpr hp
    simp [step_of_halted hp, hp, hnot, eq_comm]

/-! ## The marker influences nothing -/

/-- R18: no instruction reads the marker, and each one rewrites it: `advance` by decision D6 (log entry 6), `jump` by
R114. -/
theorem exec_setMarker (i : Instr) (s : State) (b : Option Addr) : exec i { s with bo := b } = exec i s := by
  cases i with
  | add rn rm rd => rfl
  | and rn rm rd => rfl
  | not rd rn => rfl
  | bnz addr => rfl

theorem fetch_setMarker (s : State) (b : Option Addr) : fetch { s with bo := b } = fetch s := rfl

/-- A step forgets the marker of the state it starts from. -/
theorem step_setMarker (s : State) (b : Option Addr) : step { s with bo := b } = step s := by
  simp only [step, fetch_setMarker, exec_setMarker]

/-- After the first step the two sequences of steps are one. -/
theorem Steps.setMarker {n : Nat} {s u : State} (h : Steps (n + 1) s u) (b : Option Addr) :
    Steps (n + 1) { s with bo := b } u := by
  cases h with
  | succ hstep hrest => exact .succ ((step_setMarker s b).trans hstep) hrest

/-- The runs agree but for the state of a run that takes no step, which still has the marker it was given. -/
theorem runLoop_setMarker (disasm : Bool) (budget c : Nat) (s : State) (b : Option Addr) :
    (runLoop disasm budget c { s with bo := b }).cycles = (runLoop disasm budget c s).cycles ∧
      (runLoop disasm budget c { s with bo := b }).reports = (runLoop disasm budget c s).reports := by
  cases budget with
  | zero => exact ⟨rfl, rfl⟩
  | succ n =>
    by_cases hnext : ∃ t, step s = .next t
    · obtain ⟨t, ht⟩ := hnext
      have ht' : step { s with bo := b } = .next t := (step_setMarker s b).trans ht
      rw [runLoop_next disasm n c ht, runLoop_next disasm n c ht']
      exact ⟨rfl, rfl⟩
    · have hstuck : ∀ t, step s ≠ .next t := not_exists.mp hnext
      have hstuck' : ∀ t, step { s with bo := b } ≠ .next t := fun t => step_setMarker s b ▸ hstuck t
      rw [runLoop_stuck disasm (n + 1) c hstuck, runLoop_stuck disasm (n + 1) c hstuck']
      exact ⟨rfl, rfl⟩

/-- Settles O32: the first step forgets the marker, and a run reports only states after a step. -/
theorem markerInfluencesNoRun : Obligations.MarkerInfluencesNoRun :=
  fun s b => ⟨fun _ _ h => h.setMarker b, fun disasm budget => runLoop_setMarker disasm budget 0 s b⟩

end Sys2Proof.Machine
end

section
/-! SUPPORT. The family of `20_memory.md`: the memory a load makes (R31), the spelling of a word (R43, R46), the lines
of a text (R48), and the object file's reader against its writer (R44 to R47, R49). -/

namespace Sys2Proof.Machine

/-! ## The load -/

/-- R31: address `k` holds the `k`-th word of the program, and nothing beyond its end. -/
theorem read_loaded (ws : List Word) (k : Nat) : Memory.read (State.loaded ws).imem k = ws[k]? := by
  simpa using Memory.read_ofWords 0 ws k

/-- R49: a program that fits instruction memory is loaded into it. -/
theorem loaded_of_fits {ws : List Word} (h : ws.length ≤ Config.imemWords) : Loaded (State.loaded ws) := by
  refine ⟨Memory.wf_ofWords 0 ws, h, fun a => ?_⟩
  rw [read_loaded, loaded_len]
  simp

/-- R49: every load of a program that fits meets the invariant. -/
theorem stateInv_loaded {ws : List Word} (h : ws.length ≤ Config.imemWords) : StateInv (State.loaded ws) :=
  ⟨loaded_of_fits h, Nat.zero_le _⟩

/-- Settles O12, from what a load places at each address. -/
theorem loadPlacesTheWordsAndMeetsTheInvariant : Obligations.LoadPlacesTheWordsAndMeetsTheInvariant :=
  fun ws h => ⟨stateInv_loaded h, loaded_len ws, read_loaded ws, rfl, loaded_x ws, rfl, rfl⟩

/-! ## Hexadecimal digits -/

theorem hexDigit_toNat (n : BitVec 4) :
    (hexDigit n).toNat = if n.toNat < 10 then 48 + n.toNat else 55 + n.toNat := by
  revert n; decide

/-- A number below 16 is kept by the cut to a nibble. -/
theorem some_nibble_eq_iff {n : Nat} (h : n < 16) (d : BitVec 4) :
    some (BitVec.ofNat 4 n) = some d ↔ n = d.toNat := by
  rw [Option.some_inj, ← BitVec.toNat_inj, BitVec.toNat_ofNat, Nat.mod_eq_of_lt h]

/-- R46: the digits are `0` to `9`, `A` to `F` and `a` to `f` (the lower-case ones by decision D12, log entry 15). -/
theorem hexValue_eq_some_iff (c : Char) (d : BitVec 4) :
    hexValue c = some d ↔
      (c.toNat = 48 + d.toNat ∧ d.toNat < 10) ∨ (c.toNat = 55 + d.toNat ∧ 10 ≤ d.toNat) ∨
        (c.toNat = 87 + d.toNat ∧ 10 ≤ d.toNat) := by
  have hd := d.isLt
  simp only [hexValue, hexLowerOk, true_and]
  split_ifs with hdecimal hupper hlower
  · rw [some_nibble_eq_iff (by omega)]
    omega
  · rw [some_nibble_eq_iff (by omega)]
    omega
  · rw [some_nibble_eq_iff (by omega)]
    omega
  · simp only [false_iff]
    omega

theorem hexValue_hexDigit (n : BitVec 4) : hexValue (hexDigit n) = some n := by
  rw [hexValue_eq_some_iff, hexDigit_toNat]
  split <;> omega

theorem hexDigit_ne_newline (n : BitVec 4) : hexDigit n ≠ '\n' := by
  intro h
  have hn := hexDigit_toNat n
  rw [h, show '\n'.toNat = 10 from rfl] at hn
  split at hn <;> omega

/-! ## Body lines -/

theorem highNibble_toNat (w : Word) : (w.extractLsb' 4 4).toNat = w.toNat / 16 := by
  have := w.isLt
  rw [BitVec.extractLsb'_toNat, Nat.shiftRight_eq_div_pow]
  omega

theorem lowNibble_toNat (w : Word) : (w.extractLsb' 0 4).toNat = w.toNat % 16 := by
  rw [BitVec.extractLsb'_toNat, Nat.shiftRight_zero]

/-- A word read from its two nibbles is 16 times the high one plus the low one. -/
theorem nibbles_append_toNat (d1 d0 : BitVec 4) : (d1 ++ d0).toNat = 16 * d1.toNat + d0.toNat := by
  rw [BitVec.toNat_append, ← Nat.shiftLeft_add_eq_or_of_lt d0.isLt, Nat.shiftLeft_eq]
  omega

/-- Settles O51, from the value of each nibble and the character of its digit. -/
theorem bodyLinesSpellTheTwoNibbles : Obligations.BodyLinesSpellTheTwoNibbles := by
  intro w
  refine ⟨_, _, rfl, ?_, ?_⟩
  · rw [hexDigit_toNat, highNibble_toNat]
  · rw [hexDigit_toNat, lowNibble_toNat]

theorem parseWord_of_digits {c1 c0 : Char} {d1 d0 : BitVec 4} (h1 : hexValue c1 = some d1)
    (h0 : hexValue c0 = some d0) : parseWord [c1, c0] = some (d1 ++ d0) := by
  simp only [parseWord, h1, h0]

/-- If a line is read as a word, it is two digits and the word is made of their nibbles. -/
theorem parseWord_some {t : Text} {w : Word} (h : parseWord t = some w) :
    ∃ c1 c0 d1 d0, t = [c1, c0] ∧ hexValue c1 = some d1 ∧ hexValue c0 = some d0 ∧ w = d1 ++ d0 := by
  unfold parseWord at h
  split at h
  · next c1 c0 =>
    split at h
    · next d1 d0 h1 h0 => exact ⟨c1, c0, d1, d0, rfl, h1, h0, (Option.some_inj.mp h).symm⟩
    · cases h
  · cases h

/-- Settles O52: a line is read digit by digit, and the two nibbles are joined. -/
theorem bodyLinesAreTwoHexDigits : Obligations.BodyLinesAreTwoHexDigits := by
  refine ⟨fun t w => ⟨fun h => ?_, ?_⟩, hexValue_eq_some_iff⟩
  · obtain ⟨c1, c0, d1, d0, ht, h1, h0, rfl⟩ := parseWord_some h
    exact ⟨c1, c0, d1, d0, ht, h1, h0, nibbles_append_toNat d1 d0⟩
  · rintro ⟨c1, c0, d1, d0, rfl, h1, h0, hw⟩
    have hjoin : d1 ++ d0 = w := BitVec.eq_of_toNat_eq ((nibbles_append_toNat d1 d0).trans hw.symm)
    rw [parseWord_of_digits h1 h0, hjoin]

/-- R49: what the writer spells, the reader reads. -/
theorem parseWord_spellWord (w : Word) : parseWord (spellWord w) = some w := by
  have hjoin : w.extractLsb' 4 4 ++ w.extractLsb' 0 4 = w := by
    apply BitVec.eq_of_toNat_eq
    rw [nibbles_append_toNat, highNibble_toNat, lowNibble_toNat]
    omega
  rw [spellWord, parseWord_of_digits (hexValue_hexDigit _) (hexValue_hexDigit _), hjoin]

theorem map_parseWord_map_spellWord (ws : List Word) : (ws.map spellWord).map parseWord = ws.map some := by
  rw [List.map_map]
  exact List.map_congr_left fun w _ => parseWord_spellWord w

theorem newline_not_mem_spellWord (w : Word) : '\n' ∉ spellWord w := by
  simp [spellWord, (hexDigit_ne_newline _).symm]

/-! ## Lines -/

theorem newline_not_mem_cons {c : Char} {l : Text} : '\n' ∉ c :: l ↔ c ≠ '\n' ∧ '\n' ∉ l := by
  rw [List.mem_cons, not_or, eq_comm]

/-- A line feed ends the line before it, an empty one too. -/
theorem cutLines_line_append {l : Text} (hl : '\n' ∉ l) (rest : Text) :
    cutLines (l ++ '\n' :: rest) = l :: cutLines rest := by
  induction l with
  | nil => simp [cutLines]
  | cons c l ih =>
    obtain ⟨hc, hl⟩ := newline_not_mem_cons.mp hl
    rw [List.cons_append, cutLines, if_neg hc, ih hl]

/-- A last line without a line feed is a line, if it is not empty (decision D14, log entry 15). -/
theorem cutLines_last_line {l : Text} (hne : l ≠ []) (hl : '\n' ∉ l) : cutLines l = [l] := by
  induction l with
  | nil => exact absurd rfl hne
  | cons c l ih =>
    obtain ⟨hc, hl⟩ := newline_not_mem_cons.mp hl
    cases l with
    | nil => simp [cutLines, hc]
    | cons d l => rw [cutLines, if_neg hc, ih (List.cons_ne_nil d l) hl]

/-- Ended lines are cut off one by one, before whatever follows them. -/
theorem cutLines_joinLines_append {ls : List Text} (hls : ∀ l ∈ ls, '\n' ∉ l) (rest : Text) :
    cutLines (joinLines ls ++ rest) = ls ++ cutLines rest := by
  induction ls with
  | nil => rfl
  | cons l ls ih =>
    obtain ⟨hl, hls⟩ := List.forall_mem_cons.mp hls
    rw [joinLines, List.append_assoc, List.cons_append, cutLines_line_append hl, ih hls, List.cons_append]

theorem cutLines_joinLines {ls : List Text} (hls : ∀ l ∈ ls, '\n' ∉ l) : cutLines (joinLines ls) = ls := by
  simpa [cutLines] using cutLines_joinLines_append hls []

/-- Settles O53: after the ended lines there is nothing, or one last line. -/
theorem linesAreCutAtLineFeeds : Obligations.LinesAreCutAtLineFeeds := by
  refine ⟨fun ls hls => cutLines_joinLines hls, fun ls l hls hne hl => ?_⟩
  rw [cutLines_joinLines_append hls, cutLines_last_line hne hl]

/-! ## The reader -/

/-- R46: a good line within the bound gives its word. -/
theorem readBody_good {n : Nat} (hn : n < Config.imemWords) {l : Text} {w : Word} (hw : parseWord l = some w)
    (ls : List Text) : readBody n (l :: ls) = (readBody (n + 1) ls).map (w :: ·) := by
  rw [readBody, if_neg (Nat.not_le.mpr hn), hw]

theorem readBody_malformed {n : Nat} (hn : n < Config.imemWords) {l : Text} (hl : parseWord l = none)
    (ls : List Text) : readBody n (l :: ls) = .error (.malformedWord l) := by
  rw [readBody, if_neg (Nat.not_le.mpr hn), hl]

/-- R47: a line beyond the bound is an overflow, whatever it spells (decisions D8 and D13, log entries 12 and 15). -/
theorem readBody_overflow {n : Nat} (hn : Config.imemWords ≤ n) (l : Text) (ls : List Text) :
    readBody n (l :: ls) = .error .memoryOverflow := by
  rw [readBody, if_pos hn]

/-- Good lines within the bound give their words, and the reader goes on after them. -/
theorem readBody_good_append {good : List Text} {ws : List Word} (hgood : good.map parseWord = ws.map some) {n : Nat}
    (hn : n + good.length ≤ Config.imemWords) (rest : List Text) :
    readBody n (good ++ rest) = (readBody (n + good.length) rest).map (ws ++ ·) := by
  induction good generalizing ws n with
  | nil =>
    obtain rfl : ws = [] := by simpa using hgood.symm
    cases h : readBody n rest <;> simp [h, Except.map]
  | cons l good ih =>
    cases ws with
    | nil => cases hgood
    | cons w ws =>
      obtain ⟨hl, hgood⟩ := List.cons.inj hgood
      rw [List.length_cons] at hn
      have hrest := ih hgood (n := n + 1) (by omega)
      rw [List.cons_append, readBody_good (by omega) hl, hrest, List.length_cons,
        show n + (good.length + 1) = n + 1 + good.length by omega]
      cases readBody (n + 1 + good.length) rest <;> rfl

theorem readBody_length_le {n : Nat} {ls : List Text} {ws : List Word} (h : readBody n ls = .ok ws)
    (hn : n ≤ Config.imemWords) : n + ws.length ≤ Config.imemWords := by
  induction ls generalizing n ws with
  | nil =>
    rw [readBody_nil] at h
    cases h
    exact hn
  | cons l ls ih =>
    obtain ⟨hlt, w, ws', rfl, -, hrest⟩ := readBody_cons_ok h
    have := ih hrest hlt
    rw [List.length_cons]
    omega

/-- R47: no file gives more words than instruction memory holds. -/
theorem readObject_length_le {file : Text} {ws : List Word} (h : readObject file = .ok ws) :
    ws.length ≤ Config.imemWords := by
  obtain ⟨ls, -, hbody⟩ := readObject_ok h
  simpa using readBody_length_le hbody (Nat.zero_le _)

theorem readObject_no_line {file : Text} (h : cutLines file = []) : readObject file = .error (.badHeader []) := by
  rw [readObject, h]

theorem readObject_badHeader {file l : Text} {ls : List Text} (h : cutLines file = l :: ls) (hl : l ≠ objectHeader) :
    readObject file = .error (.badHeader l) := by
  simp only [readObject, h, if_neg hl]

/-- R45: after the header the body is read from its first line on. -/
theorem readObject_header {file : Text} {ls : List Text} (h : cutLines file = objectHeader :: ls) :
    readObject file = readBody 0 ls := by
  simp only [readObject, h, if_true]

/-- After the header, good lines within the bound give their words, and the reader goes on after them. -/
theorem readObject_good_append {file : Text} {good rest : List Text} {ws : List Word}
    (hfile : cutLines file = objectHeader :: (good ++ rest)) (hgood : good.map parseWord = ws.map some)
    (hlen : good.length ≤ Config.imemWords) :
    readObject file = (readBody good.length rest).map (ws ++ ·) := by
  have hbound : 0 + good.length ≤ Config.imemWords := by omega
  rw [readObject_header hfile, readBody_good_append hgood hbound, Nat.zero_add]

theorem readObject_good {file : Text} {good : List Text} {ws : List Word}
    (hfile : cutLines file = objectHeader :: good) (hgood : good.map parseWord = ws.map some)
    (hlen : good.length ≤ Config.imemWords) : readObject file = .ok ws := by
  have hfile' : cutLines file = objectHeader :: (good ++ []) := by rw [hfile, List.append_nil]
  rw [readObject_good_append hfile' hgood hlen, readBody_nil, Except.map, List.append_nil]

/-- Settles O55: the answer after the good lines is that of the line which follows them. -/
theorem readerReportsTheFirstBadLine : Obligations.ReaderReportsTheFirstBadLine := by
  refine ⟨fun file => readObject_no_line, fun file l ls => readObject_badHeader, ?_⟩
  intro file good ws rest hfile hgood
  refine ⟨?words, ?malformed, ?overflow⟩
  case words =>
    rintro ⟨hlen, rfl⟩
    exact readObject_good (by rwa [List.append_nil] at hfile) hgood hlen
  case malformed =>
    rintro bad after ⟨hlen, rfl, hbad⟩
    rw [readObject_good_append hfile hgood hlen.le, readBody_malformed hlen hbad, Except.map]
  case overflow =>
    rintro ⟨hlen, hne⟩
    obtain ⟨l, ls, rfl⟩ := List.exists_cons_of_ne_nil hne
    rw [readObject_good_append hfile hgood hlen.le, readBody_overflow hlen.ge, Except.map]

/-! ## The writer and the reader -/

theorem newline_not_mem_objectLines (ws : List Word) : ∀ l ∈ objectLines ws, '\n' ∉ l := by
  refine List.forall_mem_cons.mpr ⟨by decide, fun l hl => ?_⟩
  obtain ⟨w, -, rfl⟩ := List.mem_map.mp hl
  exact newline_not_mem_spellWord w

/-- The written text is cut into the lines it was joined from. -/
theorem cutLines_writeObject (ws : List Word) : cutLines (writeObject ws) = objectHeader :: ws.map spellWord :=
  cutLines_joinLines (newline_not_mem_objectLines ws)

/-- R49: writing, then reading, reproduces every word list that fits instruction memory. -/
theorem readObject_writeObject {ws : List Word} (h : ws.length ≤ Config.imemWords) :
    readObject (writeObject ws) = .ok ws :=
  readObject_good (cutLines_writeObject ws) (map_parseWord_map_spellWord ws) (by rwa [List.length_map])

/-- Settles O54: a reader's answer fits instruction memory, so the round trip of what fits covers both halves. -/
theorem objectFilesRoundTrip : Obligations.ObjectFilesRoundTrip := by
  refine ⟨fun ws => readObject_writeObject, fun file ws h => ?_⟩
  have hlen := readObject_length_le h
  exact ⟨hlen, readObject_writeObject hlen⟩

end Sys2Proof.Machine
end

section
/-! SUPPORT. The family of `30_encoding.md`, the instruction word: PACK against UNPACK (R56 to R58), the three formats
(R52), and the decoder against the encoder of an instruction (R60, R63, R72). -/

namespace Sys2Proof

open Sys2Proof.Machine

/-! ## PACK and UNPACK -/

/-- Two bits put behind a number weigh it by 4. -/
theorem append_field_toNat {n : Nat} (x : BitVec n) (f : Field) : (x ++ f).toNat = 4 * x.toNat + f.toNat := by
  rw [BitVec.toNat_append, ← Nat.shiftLeft_add_eq_or_of_lt f.isLt, Nat.shiftLeft_eq]
  omega

theorem slice_toNat {n : Nat} (x : BitVec n) (start : Nat) :
    (x.extractLsb' start 2).toNat = x.toNat / 2 ^ start % 4 := by
  rw [BitVec.extractLsb'_toNat, Nat.shiftRight_eq_div_pow]

/-- R56. -/
theorem pack_toNat (f : Fields) :
    (pack f).toNat = 64 * f.op.toNat + 16 * f.f1.toNat + 4 * f.f2.toNat + f.f3.toNat := by
  rw [pack, append_field_toNat, append_field_toNat, append_field_toNat]
  omega

/-- R55: the target of a `bnz` as a number. -/
theorem target_toNat (f : Fields) : f.target.toNat = 16 * f.f1.toNat + 4 * f.f2.toNat + f.f3.toNat := by
  rw [Fields.target, append_field_toNat, append_field_toNat]
  omega

theorem unpack_op_toNat (w : Word) : (unpack w).op.toNat = w.toNat / 64 := by
  have := w.isLt
  rw [unpack, slice_toNat]
  omega

theorem unpack_f1_toNat (w : Word) : (unpack w).f1.toNat = w.toNat / 16 % 4 := slice_toNat w 4

theorem unpack_f2_toNat (w : Word) : (unpack w).f2.toNat = w.toNat / 4 % 4 := slice_toNat w 2

theorem unpack_f3_toNat (w : Word) : (unpack w).f3.toNat = w.toNat % 4 := by
  rw [unpack, slice_toNat, pow_zero, Nat.div_one]

theorem fields_eq_of_toNat {f g : Fields} (hop : f.op.toNat = g.op.toNat) (h1 : f.f1.toNat = g.f1.toNat)
    (h2 : f.f2.toNat = g.f2.toNat) (h3 : f.f3.toNat = g.f3.toNat) : f = g := by
  cases f
  cases g
  rw [Fields.mk.injEq]
  exact ⟨BitVec.eq_of_toNat_eq hop, BitVec.eq_of_toNat_eq h1, BitVec.eq_of_toNat_eq h2, BitVec.eq_of_toNat_eq h3⟩

/-- R58: the fields are the digits to base 4 of the packed word. -/
@[simp] theorem unpack_pack (f : Fields) : unpack (pack f) = f := by
  have hop := f.op.isLt
  have h1 := f.f1.isLt
  have h2 := f.f2.isLt
  have h3 := f.f3.isLt
  apply fields_eq_of_toNat
  · rw [unpack_op_toNat, pack_toNat]
    omega
  · rw [unpack_f1_toNat, pack_toNat]
    omega
  · rw [unpack_f2_toNat, pack_toNat]
    omega
  · rw [unpack_f3_toNat, pack_toNat]
    omega

@[simp] theorem pack_unpack (w : Word) : pack (unpack w) = w := by
  apply BitVec.eq_of_toNat_eq
  rw [pack_toNat, unpack_op_toNat, unpack_f1_toNat, unpack_f2_toNat, unpack_f3_toNat]
  omega

/-- Settles O1, from the three places where PACK puts two bits behind a number. -/
theorem packIsTheWeightedSumOfItsFields : Obligations.PackIsTheWeightedSumOfItsFields :=
  fun op f1 f2 f3 => pack_toNat ⟨op, f1, f2, f3⟩

/-- Settles O2, slice by slice. -/
theorem unpackReadsTheFourSlices : Obligations.UnpackReadsTheFourSlices :=
  fun w => ⟨unpack_op_toNat w, unpack_f1_toNat w, unpack_f2_toNat w, unpack_f3_toNat w⟩

/-- Settles O3, from the fields and the words as numbers. -/
theorem packAndUnpackAreInverse : Obligations.PackAndUnpackAreInverse :=
  ⟨fun op f1 f2 f3 => unpack_pack ⟨op, f1, f2, f3⟩, pack_unpack⟩

/-! ## The formats -/

/-- The fields of the word of an instruction (R52, R72): f3 of a `not` is `00`, and a target is cut into pairs of
bits. -/
def Instr.fields : Instr → Fields
  | .add rn rm rd => ⟨opcodeCode .add, regCode rn, regCode rm, regCode rd⟩
  | .and rn rm rd => ⟨opcodeCode .and, regCode rn, regCode rm, regCode rd⟩
  | .not rd rn => ⟨opcodeCode .not, regCode rd, regCode rn, 0b00#2⟩
  | .bnz addr => ⟨opcodeCode .bnz, addr.extractLsb' 4 2, addr.extractLsb' 2 2, addr.extractLsb' 0 2⟩

theorem encodeWord_eq_pack (i : Instr) : encodeWord i = pack i.fields := by cases i <;> rfl

@[simp] theorem unpack_encodeWord (i : Instr) : unpack (encodeWord i) = i.fields := by
  rw [encodeWord_eq_pack, unpack_pack]

/-- The three pairs of bits of a target are the target's digits to base 4. -/
theorem fields_bnz_weights (addr : Addr) :
    16 * (Instr.bnz addr).fields.f1.toNat + 4 * (Instr.bnz addr).fields.f2.toNat
      + (Instr.bnz addr).fields.f3.toNat = addr.toNat := by
  have := addr.isLt
  simp only [Instr.fields, slice_toNat]
  omega

/-- The three pairs of bits of the target that three fields make are those fields. -/
theorem fields_bnz_target (f : Fields) : (Instr.bnz f.target).fields = ⟨opcodeCode .bnz, f.f1, f.f2, f.f3⟩ := by
  have h1 := f.f1.isLt
  have h2 := f.f2.isLt
  have h3 := f.f3.isLt
  have htarget := target_toNat f
  apply fields_eq_of_toNat
  · rfl
  · simp only [Instr.fields, slice_toNat]
    omega
  · simp only [Instr.fields, slice_toNat]
    omega
  · simp only [Instr.fields, slice_toNat]
    omega

theorem target_fields_bnz (addr : Addr) : (Instr.bnz addr).fields.target = addr :=
  BitVec.eq_of_toNat_eq ((target_toNat _).trans (fields_bnz_weights addr))

/-- Settles O4, from the fields of each instruction. -/
theorem formatsPlaceTheOperands : Obligations.FormatsPlaceTheOperands := by
  refine ⟨fun rn rm rd => ⟨unpack_encodeWord (.add rn rm rd), unpack_encodeWord (.and rn rm rd)⟩,
    fun rd rn => unpack_encodeWord (.not rd rn), fun addr => ?_⟩
  rw [unpack_encodeWord]
  exact ⟨rfl, fields_bnz_weights addr⟩

/-! ## The decoder against the encoder -/

/-- Each word is read through its fields only. -/
theorem decodeWord_encodeWord (i : Instr) : decodeWord (encodeWord i) = i := by
  cases i with
  | add rn rm rd | and rn rm rd | not rd rn => simp [decodeWord, Instr.fields]
  | bnz addr =>
    have htarget := target_fields_bnz addr
    rw [Instr.fields] at htarget
    simp [decodeWord, Instr.fields, htarget]

/-- Settles O5: an instruction has one word, and that word decodes to it. -/
theorem decodeOfEncodeIsTheInstruction : Obligations.DecodeOfEncodeIsTheInstruction := by
  intro i rest
  rw [encode, List.singleton_append, decode, decodeWord_encodeWord]

/-- R60: DEC gives the record of the instruction that the engine runs. -/
theorem decRecord_eq_record (w : Word) : decRecord w = (decodeWord w).record := by
  simp only [decRecord, decodeWord]
  cases mnemonicOf (unpack w).op <;> rfl

@[simp] theorem decRecord_encodeWord (i : Instr) : decRecord (encodeWord i) = i.record := by
  rw [decRecord_eq_record, decodeWord_encodeWord]

@[simp] theorem record_mnemonic (i : Instr) : i.record.mnemonic = i.mnemonic := by cases i <;> rfl

theorem isNotWithF3_eq_false_iff (w : Word) :
    isNotWithF3 w = false ↔ ((unpack w).op = opcodeCode .not → (unpack w).f3 = 0) := by
  simp [isNotWithF3]

/-- R72, R75: no instruction's word is one of the 48. -/
theorem isNotWithF3_encodeWord (i : Instr) : isNotWithF3 (encodeWord i) = false := by
  rw [isNotWithF3_eq_false_iff, unpack_encodeWord]
  cases i with
  | not rd rn => exact fun _ => rfl
  | add rn rm rd | and rn rm rd | bnz addr => simp [Instr.fields, opcodeCode]

/-- R63: the decoder drops f3 of a `not` and keeps every other field. -/
theorem fields_decodeWord {w : Word} (h : isNotWithF3 w = false) : (decodeWord w).fields = unpack w := by
  have hop := opcodeCode_mnemonicOf (unpack w).op
  generalize hm : mnemonicOf (unpack w).op = m at hop
  cases m with
  | add | and => simp only [decodeWord, hm, Instr.fields, regCode_regOf, hop]
  | not =>
    have h3 : (unpack w).f3 = 0b00#2 := (isNotWithF3_eq_false_iff w).mp h hop.symm
    simp only [decodeWord, hm, Instr.fields, regCode_regOf, hop, ← h3]
  | bnz => simp only [decodeWord, hm, fields_bnz_target, hop]

/-- R63, R75: but for f3 of a `not`, encoding what a word decodes to gives the word back. -/
theorem encodeWord_decodeWord {w : Word} (h : isNotWithF3 w = false) : encodeWord (decodeWord w) = w := by
  rw [encodeWord_eq_pack, fields_decodeWord h, pack_unpack]

end Sys2Proof
end

section
/-! SUPPORT. The family of `30_encoding.md`, ENC: a word is its answer to a token line exactly if the word's record reads
like the line (R65, R66, R72, R75), and its errors in their order (R68 to R71, R73). -/

namespace Sys2Proof.Machine

/-! ## Operands against their tokens -/

/-- R67: a token is looked at in canonical form only. -/
theorem tokenFor_congr {labels : LabelTable} {t t' : Text} (h : lower t = lower t') (o : Operand) :
    TokenFor labels t o ↔ TokenFor labels t' o := by
  cases o with
  | reg r => simp only [TokenFor, h]
  | target a => simp only [TokenFor, h]

theorem resolveReg_of_tokenFor {labels : LabelTable} {t : Text} {r : Reg} (h : TokenFor labels t (.reg r))
    (line : Nat) : resolveReg t line = .ok r := resolveReg_ok.mpr h

theorem resolveLabel_of_tokenFor {labels : LabelTable} {t : Text} {a : Addr} (h : TokenFor labels t (.target a))
    (line : Nat) : resolveLabel t labels line = .ok a := resolveLabel_ok.mpr h

/-- Tokens that stand for the operands of an instruction resolve to it. -/
theorem resolveOperands_of_tokensFor {labels : LabelTable} {ops : List Text} {i : Instr}
    (h : List.Forall₂ (TokenFor labels) ops i.record.operands) (line : Nat) :
    resolveOperands i.mnemonic ops labels line = .ok i := by
  cases i with
  | add rn rm rd | and rn rm rd =>
    obtain _ | ⟨hn, _ | ⟨hm, _ | ⟨hd, _ | _⟩⟩⟩ := h
    simp only [Instr.mnemonic, resolveOperands, resolveReg_of_tokenFor hn, resolveReg_of_tokenFor hm,
      resolveReg_of_tokenFor hd]
    rfl
  | not rd rn =>
    obtain _ | ⟨hd, _ | ⟨hn, _ | _⟩⟩ := h
    simp only [Instr.mnemonic, resolveOperands, resolveReg_of_tokenFor hd, resolveReg_of_tokenFor hn]
    rfl
  | bnz addr =>
    obtain _ | ⟨ha, _ | _⟩ := h
    simp only [Instr.mnemonic, resolveOperands, resolveLabel_of_tokenFor ha]
    rfl

/-- Operands resolve to an instruction of their mnemonic, and each token stands for the operand in its place. -/
theorem tokensFor_of_resolveOperands {m : Mnemonic} {ops : List Text} {labels : LabelTable} {line : Nat} {i : Instr}
    (h : resolveOperands m ops labels line = .ok i) :
    m = i.mnemonic ∧ List.Forall₂ (TokenFor labels) ops i.record.operands := by
  obtain ⟨t1, t2, t3, q1, q2, q3, rfl, h1, h2, h3, hi⟩ | ⟨t1, t2, q1, q2, rfl, rfl, h1, h2, rfl⟩ |
    ⟨t1, a, rfl, rfl, h1, rfl⟩ := resolveOperands_ok h
  · have htokens : List.Forall₂ (TokenFor labels) [t1, t2, t3] [.reg q1, .reg q2, .reg q3] :=
      .cons h1 (.cons h2 (.cons h3 .nil))
    obtain ⟨rfl, rfl⟩ | ⟨rfl, rfl⟩ := hi
    · exact ⟨rfl, htokens⟩
    · exact ⟨rfl, htokens⟩
  · exact ⟨rfl, .cons h1 (.cons h2 .nil)⟩
  · exact ⟨rfl, .cons h1 .nil⟩

/-! ## The answer of ENC -/

theorem enc_of_mnemonic {op : Text} {m : Mnemonic} (h : lower op = m.text) (ops : List Text) (labels : LabelTable)
    (line : Nat) : enc (op :: ops) labels line = (resolveOperands m ops labels line).map encodeWord := by
  simp only [enc, resolve, mnemonicOfToken_some.mpr h]

/-- R72: a line that names an instruction's mnemonic and operands encodes to its word. -/
theorem enc_of_tokensFor {labels : LabelTable} {op : Text} {ops : List Text} {i : Instr}
    (hop : lower op = i.mnemonic.text) (hops : List.Forall₂ (TokenFor labels) ops i.record.operands) (line : Nat) :
    enc (op :: ops) labels line = .ok (encodeWord i) := by
  rw [enc_of_mnemonic hop, resolveOperands_of_tokensFor hops]
  rfl

/-- R65, R75: ENC answers exactly the words that DEC reads the line back from, the 48 words of R63 left out. -/
theorem enc_eq_ok_iff {tokens : List Text} {labels : LabelTable} {line : Nat} {w : Word} :
    enc tokens labels line = .ok w ↔ isNotWithF3 w = false ∧ LineOf labels tokens w := by
  constructor
  case mp =>
    intro h
    obtain ⟨op, ops, m, i, rfl, hop, hi, rfl⟩ := enc_ok h
    obtain ⟨rfl, hops⟩ := tokensFor_of_resolveOperands hi
    refine ⟨isNotWithF3_encodeWord i, op, ops, rfl, ?_, ?_⟩
    · rw [decRecord_encodeWord, record_mnemonic, hop]
    · rwa [decRecord_encodeWord]
  case mpr =>
    rintro ⟨hw, op, ops, rfl, hop, hops⟩
    rw [decRecord_eq_record] at hop hops
    rw [record_mnemonic] at hop
    rw [enc_of_tokensFor hop hops, encodeWord_decodeWord hw]

/-- Settles O36: one half of `enc_eq_ok_iff`. -/
theorem encodedLinesDecodeToTheirTokens : Obligations.EncodedLinesDecodeToTheirTokens := by
  intro tokens labels line w h
  obtain ⟨-, hline⟩ := enc_eq_ok_iff.mp h
  exact hline

/-- Settles O35, one instruction for each mnemonic. -/
theorem encPacksEachTokenInItsField : Obligations.EncPacksEachTokenInItsField := by
  intro labels line op t1 t2 t3 q1 q2 q3 a h1 h2 h3
  have hthree : List.Forall₂ (TokenFor labels) [t1, t2, t3] [.reg q1, .reg q2, .reg q3] :=
    .cons h1 (.cons h2 (.cons h3 .nil))
  refine ⟨fun hop => ?_, fun hop => ?_, fun hop => ?_, fun l hop hl => ?_⟩
  · exact enc_of_tokensFor (i := .add q1 q2 q3) hop hthree line
  · exact enc_of_tokensFor (i := .and q1 q2 q3) hop hthree line
  · exact enc_of_tokensFor (i := .not q1 q2) hop (.cons h1 (.cons h2 .nil)) line
  · exact enc_of_tokensFor (i := .bnz a) hop (.cons hl .nil) line

/-! ## Records written as token lines -/

theorem lower_mnemonic_text (m : Mnemonic) : lower m.text = m.text := by cases m <;> decide

theorem lower_reg_text (r : Reg) : lower r.text = r.text := by cases r <;> decide

theorem tokenFor_operandToken {labels : LabelTable} {label : Text} {o : Operand}
    (h : ∀ a, o = .target a → lookupLabel labels (lower label) = some a) :
    TokenFor labels (operandToken label o) o := by
  cases o with
  | reg r => exact lower_reg_text r
  | target a => exact h a rfl

/-- R65: a record written as a token line, its label bound to the target, reads like the record's word. -/
theorem lineOf_recordTokens {w : Word} {labels : LabelTable} {label : Text}
    (h : ∀ a, Operand.target a ∈ (decRecord w).operands → lookupLabel labels (lower label) = some a) :
    LineOf labels (recordTokens (decRecord w) label) w := by
  refine ⟨_, _, rfl, lower_mnemonic_text _, ?_⟩
  rw [List.forall₂_map_left_iff, List.forall₂_same]
  exact fun o ho => tokenFor_operandToken fun a ha => h a (ha ▸ ho)

/-- One label is enough: a record has at most one target. -/
theorem exists_label_for_targets (w : Word) : ∃ labels : LabelTable,
    ∀ a, Operand.target a ∈ (decRecord w).operands → lookupLabel labels (lower []) = some a := by
  rw [decRecord_eq_record]
  cases decodeWord w with
  | bnz addr =>
    refine ⟨[([], addr)], fun a ha => ?_⟩
    obtain rfl : a = addr := by simpa [Instr.record] using ha
    rfl
  | add rn rm rd | and rn rm rd | not rd rn => exact ⟨[], fun a ha => by simp [Instr.record] at ha⟩

/-- Settles O38: a word that ENC can emit is emitted for its own record. -/
theorem encReachesAllWordsButNotWithF3 : Obligations.EncReachesAllWordsButNotWithF3 := by
  intro w
  constructor
  case mp =>
    rintro ⟨tokens, labels, line, h⟩
    obtain ⟨hw, -⟩ := enc_eq_ok_iff.mp h
    exact hw
  case mpr =>
    intro hw
    obtain ⟨labels, hlabels⟩ := exists_label_for_targets w
    exact ⟨_, labels, 1, enc_eq_ok_iff.mpr ⟨hw, lineOf_recordTokens hlabels⟩⟩

/-! ## What ENC does not look at -/

/-- Decision D18 (log entry 13), character by character. -/
theorem toLower_eq_ite (c : Char) :
    c.toLower = if 65 ≤ c.toNat ∧ c.toNat ≤ 90 then Char.ofNat (c.toNat + 32) else c := by
  have hupper : (c.val ≥ 'A'.val ∧ c.val ≤ 'Z'.val) ↔ 65 ≤ c.toNat ∧ c.toNat ≤ 90 := Iff.rfl
  unfold Char.toLower
  by_cases h : 65 ≤ c.toNat ∧ c.toNat ≤ 90
  case neg => rw [dif_neg (hupper.not.mpr h), if_neg h]
  case pos =>
    rw [dif_pos (hupper.mpr h), if_pos h]
    apply Char.toNat_inj.mp
    have hvalid : (c.toNat + 32).isValidChar := .inl (by omega)
    rw [Char.toNat_ofNat, if_pos hvalid]
    change (c.val + 32).toNat = c.val.toNat + 32
    have hsmall : c.val.toNat ≤ 90 := h.2
    rw [UInt32.toNat_add]
    exact Nat.mod_eq_of_lt (show c.val.toNat + 32 < 2 ^ 32 by omega)

theorem tokensFor_congr {labels : LabelTable} {ops ops' : List Text} {os : List Operand}
    (h : ops.map lower = ops'.map lower) (hops : List.Forall₂ (TokenFor labels) ops os) :
    List.Forall₂ (TokenFor labels) ops' os := by
  induction hops generalizing ops' with
  | nil =>
    obtain rfl := List.map_eq_nil_iff.mp h.symm
    exact .nil
  | cons ht _ ih =>
    obtain ⟨t', ops', rfl, ht', hrest⟩ := List.map_eq_cons_iff.mp h.symm
    exact .cons ((tokenFor_congr ht' _).mpr ht) (ih hrest.symm)

theorem lineOf_congr {labels : LabelTable} {tokens tokens' : List Text} (h : tokens.map lower = tokens'.map lower)
    {w : Word} (hline : LineOf labels tokens w) : LineOf labels tokens' w := by
  obtain ⟨op, ops, rfl, hop, hops⟩ := hline
  obtain ⟨op', ops', rfl, hop', hops'⟩ := List.map_eq_cons_iff.mp h.symm
  exact ⟨op', ops', rfl, hop'.trans hop, tokensFor_congr hops'.symm hops⟩

/-- Settles O39: a word's line stays its line when tokens change their case. -/
theorem encIgnoresCase : Obligations.EncIgnoresCase := by
  refine ⟨fun t k => ?_, fun tokens tokens' labels line w hcase h => ?_⟩
  · rw [lower, List.getElem?_map, funext toLower_eq_ite]
  · obtain ⟨hw, hline⟩ := enc_eq_ok_iff.mp h
    exact enc_eq_ok_iff.mpr ⟨hw, lineOf_congr hcase hline⟩

theorem resolveLabel_congr {labels labels' : LabelTable} (h : ∀ n, lookupLabel labels n = lookupLabel labels' n)
    (t : Text) (line : Nat) : resolveLabel t labels line = resolveLabel t labels' line := by
  rw [resolveLabel, resolveLabel, h]

theorem resolveOperands_congr {labels labels' : LabelTable} (h : ∀ n, lookupLabel labels n = lookupLabel labels' n)
    (m : Mnemonic) (ops : List Text) (line : Nat) :
    resolveOperands m ops labels line = resolveOperands m ops labels' line := by
  simp only [resolveOperands, resolveLabel_congr h]

/-- Settles O40: only the operand of a `bnz` looks at the table. -/
theorem encDependsOnlyOnWhatLabelsAreBoundTo : Obligations.EncDependsOnlyOnWhatLabelsAreBoundTo := by
  intro labels labels' h tokens line
  simp only [enc, resolve, resolveOperands_congr h]

/-! ## The errors of ENC -/

/-- R69: the count is checked before any operand is looked at. -/
theorem resolveOperands_of_length_ne {m : Mnemonic} {ops : List Text} (h : ops.length ≠ arity m) (labels : LabelTable)
    (line : Nat) : resolveOperands m ops labels line = .error (.arityError m (arity m) ops.length line) := by
  unfold resolveOperands
  split
  · exact absurd rfl h
  · exact absurd rfl h
  · exact absurd rfl h
  · exact absurd rfl h
  · rfl

/-- Settles O41: the order of the checks is that of `resolve` and `resolveOperands`. -/
theorem encChecksTheOpcodeThenTheCount : Obligations.EncChecksTheOpcodeThenTheCount := by
  refine ⟨fun labels line => rfl, fun op ops labels line hop => ?_, fun op ops m labels line hop hlen => ?_⟩
  · simp only [enc, resolve, mnemonicOfToken_none.mpr hop, Except.map]
  · rw [enc_of_mnemonic hop, resolveOperands_of_length_ne hlen, Except.map]

/-- The registers that operand tokens name, read from the left up to the first error (R73). -/
def resolveRegs (line : Nat) (ops : List Text) : Except ToolError (List Reg) := ops.mapM fun t => resolveReg t line

/-- The leftmost token that names no register is the error, whatever follows it. -/
theorem resolveRegs_leftmost {before : List Text} {t : Text} (after : List Text) (line : Nat)
    (hbefore : ∀ b ∈ before, ∃ r : Reg, lower b = r.text) (ht : ∀ r : Reg, lower t ≠ r.text) :
    resolveRegs line (before ++ t :: after) = .error (.invalidRegister t line) := by
  induction before with
  | nil =>
    rw [resolveRegs, List.nil_append, List.mapM_cons, resolveReg_of_none ht]
    rfl
  | cons b before ih =>
    obtain ⟨⟨r, hr⟩, hbefore⟩ := List.forall_mem_cons.mp hbefore
    have hrest := ih hbefore
    rw [resolveRegs] at hrest
    rw [resolveRegs, List.cons_append, List.mapM_cons, resolveReg_ok.mpr hr, hrest]
    rfl

/-- An error of the first part, or of what follows it, is kept when what follows is replaced by something that fails
alike. -/
theorem bind_error_mono {ε α β γ : Type} {x : Except ε α} {f : α → Except ε β} {g : α → Except ε γ} {e : ε}
    (h : (x >>= f) = .error e) (hfg : ∀ a, f a = .error e → g a = .error e) : (x >>= g) = .error e := by
  obtain rfl | ⟨a, rfl, ha⟩ := bind_error h
  · rfl
  · exact hfg a ha

/-- With the right operand count, all operands but a label are registers, and their first error is the answer. -/
theorem resolveOperands_of_resolveRegs_error {m : Mnemonic} (hm : m ≠ .bnz) {ops : List Text}
    (hlen : ops.length = arity m) {line : Nat} {e : ToolError} (h : resolveRegs line ops = .error e)
    (labels : LabelTable) : resolveOperands m ops labels line = .error e := by
  cases m with
  | bnz => exact absurd rfl hm
  | add | and =>
    obtain ⟨t1, t2, t3, rfl⟩ := List.length_eq_three.mp hlen
    simp only [resolveRegs, List.mapM_cons, List.mapM_nil, bind_assoc, pure_bind] at h
    exact bind_error_mono h fun _ h => bind_error_mono h fun _ h => bind_error_mono h fun _ h => by cases h
  | not =>
    obtain ⟨t1, t2, rfl⟩ := List.length_eq_two.mp hlen
    simp only [resolveRegs, List.mapM_cons, List.mapM_nil, bind_assoc, pure_bind] at h
    exact bind_error_mono h fun _ h => bind_error_mono h fun _ h => by cases h

/-- Settles O42: the registers' first error, or the one label's. -/
theorem encReportsTheLeftmostBadOperand : Obligations.EncReportsTheLeftmostBadOperand := by
  refine ⟨fun op before t after m labels line hop hm hlen hbefore ht => ?_, fun op t labels line hop ht => ?_⟩
  · have hregs := resolveRegs_leftmost after line hbefore ht
    rw [enc_of_mnemonic hop, resolveOperands_of_resolveRegs_error hm hlen hregs, Except.map]
  · rw [enc_of_mnemonic hop]
    simp only [resolveOperands, resolveLabel, ht]
    rfl

end Sys2Proof.Machine
end

section
/-! SUPPORT. The family of `30_encoding.md`, the lexer: what `split` cuts and what it drops (R77), and that pass 1 finds a
token on every line it does not skip (R78, R79). -/

namespace Sys2Proof.Machine

/-! ## Comments -/

theorem comment_not_mem_cons {c : Char} {t : Text} : ';' ∉ c :: t ↔ c ≠ ';' ∧ ';' ∉ t := by
  rw [List.mem_cons, not_or, eq_comm]

theorem stripComment_comment (t : Text) : stripComment (';' :: t) = [] := by
  simp [stripComment, commentChar]

theorem stripComment_cons {c : Char} (hc : c ≠ ';') (t : Text) : stripComment (c :: t) = c :: stripComment t := by
  simp [stripComment, commentChar, hc]

theorem stripComment_append {a : Text} (ha : ';' ∉ a) (t : Text) : stripComment (a ++ t) = a ++ stripComment t := by
  induction a with
  | nil => rfl
  | cons c a ih =>
    obtain ⟨hc, ha⟩ := comment_not_mem_cons.mp ha
    rw [List.cons_append, stripComment_cons hc, ih ha, List.cons_append]

theorem stripComment_of_no_comment {a : Text} (ha : ';' ∉ a) : stripComment a = a := by
  simpa [stripComment] using stripComment_append ha []

/-! ## Pieces -/

theorem pieces_sep (sep : Char) (t : Text) : pieces sep (sep :: t) = [] :: pieces sep t := by simp [pieces]

theorem pieces_ne_nil (sep : Char) (t : Text) : pieces sep t ≠ [] := by
  cases t with
  | nil => exact List.cons_ne_nil _ _
  | cons c t =>
    rw [pieces]
    split
    · exact List.cons_ne_nil _ _
    · split <;> exact List.cons_ne_nil _ _

/-- A character that is no separator lengthens the first piece. -/
theorem pieces_cons {sep c : Char} (hc : c ≠ sep) {t p : Text} {ps : List Text} (h : pieces sep t = p :: ps) :
    pieces sep (c :: t) = (c :: p) :: ps := by
  rw [pieces, if_neg hc, h]

theorem pieces_append_sep (sep : Char) (a b : Text) : pieces sep (a ++ sep :: b) = pieces sep a ++ pieces sep b := by
  induction a with
  | nil => exact pieces_sep sep b
  | cons c a ih =>
    by_cases hc : c = sep
    case pos =>
      subst hc
      rw [List.cons_append, pieces_sep, pieces_sep, ih, List.cons_append]
    case neg =>
      obtain ⟨p, ps, hp⟩ := List.exists_cons_of_ne_nil (pieces_ne_nil sep a)
      rw [hp, List.cons_append] at ih
      rw [List.cons_append, pieces_cons hc ih, pieces_cons hc hp, List.cons_append]

theorem pieces_of_no_sep {sep : Char} {t : Text} (h : sep ∉ t) : pieces sep t = [t] := by
  induction t with
  | nil => rfl
  | cons c t ih =>
    obtain ⟨hc, ht⟩ := not_or.mp (List.mem_cons.not.mp h)
    exact pieces_cons (Ne.symm hc) (ih ht)

/-- The pieces hold every character but the separators. -/
theorem flatten_pieces (sep : Char) (t : Text) : (pieces sep t).flatten = t.filter (· ≠ sep) := by
  induction t with
  | nil => rfl
  | cons c t ih =>
    by_cases hc : c = sep
    case pos =>
      subst hc
      rw [pieces_sep, List.flatten_cons, List.nil_append, ih, List.filter_cons_of_neg (by simp)]
    case neg =>
      obtain ⟨p, ps, hp⟩ := List.exists_cons_of_ne_nil (pieces_ne_nil sep t)
      rw [hp, List.flatten_cons] at ih
      rw [pieces_cons hc hp, List.flatten_cons, List.cons_append, ih, List.filter_cons_of_pos (by simp [hc])]

/-! ## `split` -/

/-- Settles O43, each clause from the comment that is cut off and the pieces of what is left. -/
theorem splitCutsCommentsAndSeparators : Obligations.SplitCutsCommentsAndSeparators := by
  refine ⟨fun sep => rfl, fun a b sep ha => ?comment, fun a b sep hsep ha => ?separator,
    fun t sep hne hsep ht => ?token⟩
  case comment =>
    rw [split, split, stripComment_append ha, stripComment_comment, List.append_nil, stripComment_of_no_comment ha]
  case separator =>
    rw [split, split, split, stripComment_append ha, stripComment_cons hsep, pieces_append_sep, List.filter_append,
      stripComment_of_no_comment ha]
  case token =>
    rw [split, stripComment_of_no_comment ht, pieces_of_no_sep hsep]
    simp [hne]

/-- A line without tokens holds only separators before its comment. -/
theorem eq_sep_of_split_eq_nil {line : Text} {sep : Char} (h : split line sep = []) :
    ∀ c ∈ stripComment line, c = sep := by
  have hempty : (pieces sep (stripComment line)).flatten = [] := by
    rw [List.flatten_eq_nil_iff]
    intro p hp
    simpa using List.filter_eq_nil_iff.mp h p hp
  rw [flatten_pieces, List.filter_eq_nil_iff] at hempty
  intro c hc
  simpa using hempty c hc

theorem skipped_separator_cons (line : Text) : skipped (separator :: line) = skipped line := by
  simp [skipped, isBlankLine, isComment, isBlankChar, separator]

/-- A line that holds only separators before its comment is a blank line or a comment (decision D11, log entry 13: the
separator is a blank character). -/
theorem skipped_of_only_separators {line : Text} (h : ∀ c ∈ stripComment line, c = separator) :
    skipped line = true := by
  induction line with
  | nil => rfl
  | cons c line ih =>
    by_cases hc : c = ';'
    case pos =>
      subst hc
      simp [skipped, isComment, isBlankChar, commentChar]
    case neg =>
      rw [stripComment_cons hc, List.forall_mem_cons] at h
      obtain ⟨rfl, hline⟩ := h
      rw [skipped_separator_cons, ih hline]

/-- Settles O44: a line without tokens is skipped. -/
theorem acceptedLinesHaveAToken : Obligations.AcceptedLinesHaveAToken := by
  intro line hline hsplit
  rw [skipped_of_only_separators (eq_sep_of_split_eq_nil hsplit)] at hline
  cases hline

end Sys2Proof.Machine
end

section
/-! SUPPORT. The family of `30_encoding.md`, pass 1: the accepted lines and their addresses (R79, R81, R82, R85), the
label table (R80), when pass 1 fails and with which error (R80, R81), and the whole program read back (R65). -/

namespace Sys2Proof.Machine

/-! ## The label table -/

theorem lookupLabel_eq_none_iff {labels : LabelTable} {name : Text} :
    lookupLabel labels name = none ↔ name ∉ labels.map Prod.fst := by
  induction labels with
  | nil => simp [lookupLabel]
  | cons b labels ih =>
    rw [lookupLabel, List.map_cons, List.mem_cons, not_or, ← ih]
    by_cases h : b.1 = name
    · simp [h]
    · simp [h, Ne.symm h]

theorem lookupLabel_of_mem {labels : LabelTable} (hnodup : (labels.map Prod.fst).Nodup) {name : Text} {a : Addr}
    (h : (name, a) ∈ labels) : lookupLabel labels name = some a := by
  induction labels with
  | nil => cases h
  | cons b labels ih =>
    rw [List.map_cons, List.nodup_cons] at hnodup
    obtain ⟨hb, hnodup⟩ := hnodup
    rcases List.mem_cons.mp h with rfl | h
    · exact if_pos rfl
    · have hne : b.1 ≠ name := fun he => hb (he ▸ List.mem_map_of_mem h)
      rw [lookupLabel, if_neg hne, ih hnodup h]

/-- The table after a line at an address is accepted: the line's label, if it has one, is bound to the address (R80). -/
def bindLabel (l : Text) (next : Nat) (labels : LabelTable) : LabelTable :=
  match labelOf l with
  | none => labels
  | some name => (name, BitVec.ofNat 6 next) :: labels

theorem bindLabel_of_none {l : Text} (h : labelOf l = none) (next : Nat) (labels : LabelTable) :
    bindLabel l next labels = labels := by rw [bindLabel, h]

theorem bindLabel_of_some {l name : Text} (h : labelOf l = some name) (next : Nat) (labels : LabelTable) :
    bindLabel l next labels = (name, BitVec.ofNat 6 next) :: labels := by rw [bindLabel, h]

theorem bindLabel_names (l : Text) (next : Nat) (labels : LabelTable) :
    (bindLabel l next labels).map Prod.fst = (labelOf l).toList ++ labels.map Prod.fst := by
  cases h : labelOf l with
  | none => rw [bindLabel_of_none h]; rfl
  | some name => rw [bindLabel_of_some h]; rfl

theorem labelsOf_cons (l : Text) (k : Nat) (ps : List (Text × Nat)) :
    labelsOf ((l, k) :: ps) = (labelOf l).toList ++ labelsOf ps := by
  cases h : labelOf l with
  | none => simp [labelsOf, h]
  | some name => simp [labelsOf, h]

/-- Accepting a line moves its label from the names to come to the names that are bound. -/
theorem bindLabel_names_perm (l : Text) (k next : Nat) (labels : LabelTable) (ps : List (Text × Nat)) :
    ((bindLabel l next labels).map Prod.fst ++ labelsOf ps).Perm
      (labels.map Prod.fst ++ labelsOf ((l, k) :: ps)) := by
  rw [bindLabel_names, labelsOf_cons, List.append_assoc]
  exact List.perm_append_comm_assoc _ _ _

/-- The label of a line, if it has one, is not bound yet. -/
def FreshLabel (l : Text) (labels : LabelTable) : Prop := ∀ name, labelOf l = some name → name ∉ labels.map Prod.fst

theorem bindLabel_names_nodup {l : Text} {labels : LabelTable} (hfresh : FreshLabel l labels)
    (h : (labels.map Prod.fst).Nodup) (next : Nat) : ((bindLabel l next labels).map Prod.fst).Nodup := by
  cases hl : labelOf l with
  | none => rwa [bindLabel_of_none hl]
  | some name =>
    rw [bindLabel_of_some hl, List.map_cons, List.nodup_cons]
    exact ⟨hfresh name hl, h⟩

/-- Of names without repetition, those to come are not bound yet. -/
theorem freshLabel_of_nodup {l : Text} {k : Nat} {labels : LabelTable} {ps : List (Text × Nat)}
    (h : (labels.map Prod.fst ++ labelsOf ((l, k) :: ps)).Nodup) : FreshLabel l labels := by
  intro name hname hmem
  have hcoming : name ∈ labelsOf ((l, k) :: ps) := by simp [labelsOf_cons, hname]
  exact (List.nodup_append'.mp h).2.2 hmem hcoming

theorem lookupLabel_bindLabel {l : Text} {labels : LabelTable} (hfresh : FreshLabel l labels) (next : Nat)
    (name : Text) (a : Addr) :
    lookupLabel (bindLabel l next labels) name = some a ↔
      lookupLabel labels name = some a ∨ (labelOf l = some name ∧ a = BitVec.ofNat 6 next) := by
  cases hl : labelOf l with
  | none => simp [bindLabel_of_none hl]
  | some name' =>
    rw [bindLabel_of_some hl, lookupLabel]
    by_cases h : name' = name
    · subst h
      simp [lookupLabel_eq_none_iff.mpr (hfresh _ hl), eq_comm]
    · simp [h]

/-! ## Pass 1, line by line -/

/-- R81: the address is checked before the label. -/
theorem pass1_overflow {l : Text} (hs : skipped l = false) {next : Nat} (hn : Config.imemWords ≤ next)
    (ls : List Text) (line : Nat) (labels : LabelTable) :
    pass1 (l :: ls) line next labels = .error .memoryOverflow := by
  simp [pass1, hs, hn]

/-- R80. -/
theorem pass1_duplicate {l : Text} (hs : skipped l = false) {next : Nat} (hn : next < Config.imemWords) {name : Text}
    (hl : labelOf l = some name) {labels : LabelTable} (hbound : name ∈ labels.map Prod.fst) (ls : List Text)
    (line : Nat) : pass1 (l :: ls) line next labels = .error (.duplicateLabel name line) := by
  have hlookup : (lookupLabel labels name).isSome = true := by
    rw [Option.isSome_iff_ne_none]
    exact fun hnone => lookupLabel_eq_none_iff.mp hnone hbound
  have hsplit : splitLabel (split l separator) = (some name, tokensOf l) := Prod.ext hl rfl
  simp [pass1, hs, Nat.not_le.mpr hn, hsplit, hlookup]

/-- R79, R80, R82: a line within the bound and with no bound label takes its address and binds its label. -/
theorem pass1_fresh {l : Text} (hs : skipped l = false) {next : Nat} (hn : next < Config.imemWords)
    {labels : LabelTable} (hfresh : FreshLabel l labels) (ls : List Text) (line : Nat) :
    pass1 (l :: ls) line next labels =
      (pass1 ls (line + 1) (next + 1) (bindLabel l next labels)).map
        fun r => (r.1, ⟨next, tokensOf l, line⟩ :: r.2) := by
  cases hl : labelOf l with
  | none =>
    have hsplit : splitLabel (split l separator) = (none, tokensOf l) := Prod.ext hl rfl
    simp [pass1, hs, Nat.not_le.mpr hn, hsplit, bindLabel_of_none hl]
  | some name =>
    have hsplit : splitLabel (split l separator) = (some name, tokensOf l) := Prod.ext hl rfl
    have hlookup := lookupLabel_eq_none_iff.mpr (hfresh name hl)
    simp [pass1, hs, Nat.not_le.mpr hn, hsplit, hlookup, bindLabel_of_some hl]

/-- If pass 1 succeeds on a line that it does not skip, the line was within the bound, its label was not bound, and the
rest succeeded after it. -/
theorem pass1_ok_cons {l : Text} (hs : skipped l = false) {ls : List Text} {line next : Nat} {labels : LabelTable}
    {r : LabelTable × List Accepted} (h : pass1 (l :: ls) line next labels = .ok r) :
    next < Config.imemWords ∧ FreshLabel l labels ∧
      ∃ r', r = (r'.1, ⟨next, tokensOf l, line⟩ :: r'.2) ∧
        pass1 ls (line + 1) (next + 1) (bindLabel l next labels) = .ok r' := by
  obtain ⟨hn, r', hr, ⟨hl, hrest⟩ | ⟨name, hl, hlookup, hrest⟩⟩ := pass1_accepted hs h
  · refine ⟨hn, fun name hname => ?_, r', hr, ?_⟩
    · rw [labelOf, hl] at hname
      cases hname
    · rwa [bindLabel_of_none hl]
  · refine ⟨hn, fun name' hname => ?_, r', hr, ?_⟩
    · obtain rfl : name = name' := Option.some_inj.mp (hl.symm.trans hname)
      exact lookupLabel_eq_none_iff.mp hlookup
    · rwa [bindLabel_of_some hl]

/-! ## The accepted lines -/

/-- R82, R85, D17: the accepted lines in file order, each with its address, its tokens and its line number. -/
theorem pass1_accepted_lines {ls : List Text} {line next : Nat} {labels : LabelTable} {r : LabelTable × List Accepted}
    (h : pass1 ls line next labels = .ok r) :
    r.2 = ((numberedFrom line ls).zipIdx next).map fun p => ⟨p.2, tokensOf p.1.1, p.1.2⟩ := by
  induction ls generalizing line next labels r with
  | nil =>
    cases h
    rfl
  | cons l ls ih =>
    cases hs : skipped l with
    | true =>
      rw [pass1_skipped hs] at h
      rw [numberedFrom_skipped hs]
      exact ih h
    | false =>
      obtain ⟨-, -, r', rfl, hrest⟩ := pass1_ok_cons hs h
      rw [numberedFrom_accepted hs, List.zipIdx_cons, List.map_cons, ← ih hrest]

/-- R81: there is an address for every accepted line. -/
theorem pass1_length_le {ls : List Text} {line next : Nat} {labels : LabelTable} {r : LabelTable × List Accepted}
    (h : pass1 ls line next labels = .ok r) (hn : next ≤ Config.imemWords) :
    next + (numberedFrom line ls).length ≤ Config.imemWords := by
  induction ls generalizing line next labels r with
  | nil => exact hn
  | cons l ls ih =>
    cases hs : skipped l with
    | true =>
      rw [pass1_skipped hs] at h
      rw [numberedFrom_skipped hs]
      exact ih h hn
    | false =>
      obtain ⟨hlt, -, r', rfl, hrest⟩ := pass1_ok_cons hs h
      have := ih hrest hlt
      rw [numberedFrom_accepted hs, List.length_cons]
      omega

theorem pass1_accepted_length {ls : List Text} {labels : LabelTable} {accepted : List Accepted}
    (h : pass1 ls 1 0 [] = .ok (labels, accepted)) :
    accepted.length = (numberedFrom 1 ls).length ∧ accepted.length ≤ Config.imemWords := by
  have hlines : accepted.length = _ := congrArg List.length (pass1_accepted_lines h)
  have hbound := pass1_length_le h (Nat.zero_le _)
  rw [List.length_map, List.length_zipIdx] at hlines
  exact ⟨hlines, by omega⟩

/-- Settles O45: each part reads one component of the accepted lines. -/
theorem passOneNumbersTheAcceptedLines : Obligations.PassOneNumbersTheAcceptedLines := by
  intro ls labels accepted h
  obtain ⟨hlength, hbound⟩ := pass1_accepted_length h
  have hlines : accepted = _ := pass1_accepted_lines h
  refine ⟨?_, hbound, ?_⟩
  · rw [hlength, hlines, List.map_map, List.range_eq_range', ← List.zipIdx_map_snd]
    rfl
  · rw [hlines, List.map_map]
    conv_rhs => rw [← List.zipIdx_map_fst 0 (numberedFrom 1 ls), List.map_map]
    rfl

/-! ## The labels -/

/-- A label table binds the labels of the accepted lines, each to the address of its line (R80). -/
structure BindsLabelsOf (lines : List Text) (labels : LabelTable) : Prop where
  names_nodup : (labels.map Prod.fst).Nodup
  addrs_nodup : (labels.map Prod.snd).Nodup
  lookup_iff : ∀ (name : Text) (a : Addr),
    lookupLabel labels name = some a ↔ (lines.map labelOf)[a.toNat]? = some (some name)

theorem bindsLabelsOf_nil : BindsLabelsOf [] [] :=
  ⟨List.nodup_nil, List.nodup_nil, fun name a => by simp [lookupLabel]⟩

/-- A table binds nothing to the address of the next line. -/
theorem BindsLabelsOf.next_not_mem {lines : List Text} {labels : LabelTable} (h : BindsLabelsOf lines labels) {a : Addr}
    (ha : lines.length ≤ a.toNat) : a ∉ labels.map Prod.snd := by
  intro hmem
  obtain ⟨b, hb, rfl⟩ := List.mem_map.mp hmem
  have hline := (h.lookup_iff b.1 b.2).mp (lookupLabel_of_mem h.names_nodup hb)
  have hlt := (List.getElem?_eq_some_iff.mp hline).1
  rw [List.length_map] at hlt
  omega

theorem getElem?_concat_eq_some_iff {α : Type} (xs : List α) (x y : α) (k : Nat) :
    (xs ++ [x])[k]? = some y ↔ xs[k]? = some y ∨ (k = xs.length ∧ x = y) := by
  rcases Nat.lt_trichotomy k xs.length with h | h | h
  · rw [List.getElem?_append_left h]
    simp [h.ne]
  · subst h
    simp
  · have hlen : (xs ++ [x]).length ≤ k := by rwa [List.length_append, List.length_singleton]
    rw [List.getElem?_eq_none hlen, List.getElem?_eq_none h.le]
    simp [h.ne']

/-- R80: accepting one more line keeps the table in order. -/
theorem BindsLabelsOf.concat {lines : List Text} {labels : LabelTable} (h : BindsLabelsOf lines labels) {l : Text}
    (hn : lines.length < Config.imemWords) (hfresh : FreshLabel l labels) :
    BindsLabelsOf (lines ++ [l]) (bindLabel l lines.length labels) := by
  have haddr : (BitVec.ofNat 6 lines.length).toNat = lines.length := by
    rw [BitVec.toNat_ofNat]
    exact Nat.mod_eq_of_lt hn
  refine ⟨bindLabel_names_nodup hfresh h.names_nodup _, ?_, fun name a => ?_⟩
  · cases hl : labelOf l with
    | none =>
      rw [bindLabel_of_none hl]
      exact h.addrs_nodup
    | some name =>
      rw [bindLabel_of_some hl, List.map_cons, List.nodup_cons]
      exact ⟨h.next_not_mem haddr.ge, h.addrs_nodup⟩
  · rw [lookupLabel_bindLabel hfresh, List.map_append, List.map_singleton, getElem?_concat_eq_some_iff,
      h.lookup_iff, List.length_map, ← BitVec.toNat_inj, haddr, and_comm]

theorem acceptedLines_skipped {l : Text} (h : skipped l = true) (ls : List Text) :
    acceptedLines (l :: ls) = acceptedLines ls := by simp [acceptedLines, h]

theorem acceptedLines_accepted {l : Text} (h : skipped l = false) (ls : List Text) :
    acceptedLines (l :: ls) = l :: acceptedLines ls := by simp [acceptedLines, h]

/-- Pass 1 over more lines keeps the table in order. -/
theorem pass1_bindsLabelsOf {ls : List Text} {line : Nat} {before : List Text} {labels : LabelTable}
    {r : LabelTable × List Accepted} (h : pass1 ls line before.length labels = .ok r)
    (hbefore : BindsLabelsOf before labels) : BindsLabelsOf (before ++ acceptedLines ls) r.1 := by
  induction ls generalizing line before labels r with
  | nil =>
    cases h
    rwa [acceptedLines, List.filter_nil, List.append_nil]
  | cons l ls ih =>
    cases hs : skipped l with
    | true =>
      rw [pass1_skipped hs] at h
      rw [acceptedLines_skipped hs]
      exact ih h hbefore
    | false =>
      obtain ⟨hn, hfresh, r', rfl, hrest⟩ := pass1_ok_cons hs h
      have hlength : (before ++ [l]).length = before.length + 1 := by simp
      rw [← hlength] at hrest
      have hbinds := ih hrest (hbefore.concat hn hfresh)
      rwa [acceptedLines_accepted hs, List.append_cons]

/-- Settles O46: the empty table is in order, and pass 1 keeps it so. -/
theorem passOneBindsEachLabelToItsLine : Obligations.PassOneBindsEachLabelToItsLine := by
  intro ls labels accepted h
  have hbinds : BindsLabelsOf (acceptedLines ls) labels := pass1_bindsLabelsOf (before := []) h bindsLabelsOf_nil
  exact ⟨hbinds.names_nodup, hbinds.addrs_nodup, hbinds.lookup_iff⟩

/-! ## Success and failure -/

/-- If pass 1 succeeds, no label to come is bound already, and none comes twice. -/
theorem pass1_ok_nodup {ls : List Text} {line next : Nat} {labels : LabelTable} {r : LabelTable × List Accepted}
    (h : pass1 ls line next labels = .ok r) (hnames : (labels.map Prod.fst).Nodup) :
    (labels.map Prod.fst ++ labelsOf (numberedFrom line ls)).Nodup := by
  induction ls generalizing line next labels r with
  | nil => rwa [show labelsOf (numberedFrom line []) = [] from rfl, List.append_nil]
  | cons l ls ih =>
    cases hs : skipped l with
    | true =>
      rw [pass1_skipped hs] at h
      rw [numberedFrom_skipped hs]
      exact ih h hnames
    | false =>
      obtain ⟨-, hfresh, r', rfl, hrest⟩ := pass1_ok_cons hs h
      rw [numberedFrom_accepted hs, ← (bindLabel_names_perm l line next labels _).nodup_iff]
      exact ih hrest (bindLabel_names_nodup hfresh hnames next)

/-- What an error of pass 1 means: too many accepted lines, or a name that is bound at least twice. -/
theorem pass1_error {ls : List Text} {line next : Nat} {labels : LabelTable} {e : ToolError}
    (h : pass1 ls line next labels = .error e) :
    (e = .memoryOverflow ∧ Config.imemWords < next + (numberedFrom line ls).length) ∨
      ∃ name k, e = .duplicateLabel name k ∧
        2 ≤ (labels.map Prod.fst ++ labelsOf (numberedFrom line ls)).count name := by
  induction ls generalizing line next labels with
  | nil => cases h
  | cons l ls ih =>
    cases hs : skipped l with
    | true =>
      rw [pass1_skipped hs] at h
      rw [numberedFrom_skipped hs]
      exact ih h
    | false =>
      rw [numberedFrom_accepted hs, List.length_cons]
      rcases Nat.lt_or_ge next Config.imemWords with hn | hn
      case inr =>
        rw [pass1_overflow hs hn] at h
        cases h
        exact .inl ⟨rfl, by omega⟩
      case inl =>
        by_cases hfresh : FreshLabel l labels
        case pos =>
          rw [pass1_fresh hs hn hfresh] at h
          obtain ⟨he, hover⟩ | ⟨name, k, he, hcount⟩ := ih (map_error h)
          · exact .inl ⟨he, by omega⟩
          · rw [(bindLabel_names_perm l line next labels _).count_eq] at hcount
            exact .inr ⟨name, k, he, hcount⟩
        case neg =>
          simp only [FreshLabel, not_forall, not_not] at hfresh
          obtain ⟨name, hl, hbound⟩ := hfresh
          rw [pass1_duplicate hs hn hl hbound] at h
          cases h
          refine .inr ⟨name, line, rfl, ?_⟩
          have hcount := List.count_pos_iff.mpr hbound
          simp only [labelsOf_cons, hl, Option.toList_some, List.count_append, List.count_singleton_self]
          omega

/-- Blank lines and comments are passed over up to the next accepted line. -/
theorem pass1_of_numberedFrom_cons {ls : List Text} {line : Nat} {l : Text} {k : Nat} {ps : List (Text × Nat)}
    (h : numberedFrom line ls = (l, k) :: ps) :
    skipped l = false ∧ ∃ ls', numberedFrom (k + 1) ls' = ps ∧
      ∀ next labels, pass1 ls line next labels = pass1 (l :: ls') k next labels := by
  induction ls generalizing line with
  | nil => cases h
  | cons l' ls ih =>
    cases hs : skipped l' with
    | true =>
      rw [numberedFrom_skipped hs] at h
      obtain ⟨hl, ls', hps, hpass⟩ := ih h
      exact ⟨hl, ls', hps, fun next labels => (pass1_skipped hs ls line next labels).trans (hpass next labels)⟩
    | false =>
      rw [numberedFrom_accepted hs] at h
      cases h
      exact ⟨hs, ls, rfl, fun next labels => rfl⟩

/-- If accepted lines bind no label twice and the line after them fails, pass 1 answers its error. -/
theorem pass1_error_at {before after : List (Text × Nat)} {l : Text} {k : Nat} {e : ToolError} {ls : List Text}
    {line next : Nat} {labels : LabelTable} (hls : numberedFrom line ls = before ++ (l, k) :: after)
    (hlen : next + before.length ≤ Config.imemWords) (hnodup : (labels.map Prod.fst ++ labelsOf before).Nodup)
    (hfail : ∀ ls' labels', skipped l = false → (labels'.map Prod.fst).Perm (labels.map Prod.fst ++ labelsOf before) →
      pass1 (l :: ls') k (next + before.length) labels' = .error e) :
    pass1 ls line next labels = .error e := by
  induction before generalizing ls line next labels with
  | nil =>
    obtain ⟨hs, ls', -, hpass⟩ := pass1_of_numberedFrom_cons hls
    rw [hpass]
    exact hfail ls' labels hs (by simp [labelsOf])
  | cons b before ih =>
    obtain ⟨hs, ls', hls', hpass⟩ := pass1_of_numberedFrom_cons hls
    rw [List.length_cons] at hlen
    have hperm := bindLabel_names_perm b.1 b.2 next labels before
    have hrest : pass1 ls' (b.2 + 1) (next + 1) (bindLabel b.1 next labels) = .error e := by
      refine ih hls' (by omega) (hperm.nodup_iff.mpr hnodup) fun ls'' labels' hl hnames => ?_
      have := hfail ls'' labels' hl (hnames.trans hperm)
      rwa [List.length_cons, ← Nat.add_assoc, Nat.add_right_comm] at this
    rw [hpass, pass1_fresh hs (by omega) (freshLabel_of_nodup hnodup), hrest]
    rfl

/-- R80: the first accepted line within the bound that binds a label bound before it. -/
theorem pass1_first_duplicate {ls : List Text} {before after : List (Text × Nat)} {l : Text} {line : Nat} {name : Text}
    (hls : numberedFrom 1 ls = before ++ (l, line) :: after) (hlen : before.length < Config.imemWords)
    (hnodup : (labelsOf before).Nodup) (hl : labelOf l = some name) (hbound : name ∈ labelsOf before) :
    pass1 ls 1 0 [] = .error (.duplicateLabel name line) := by
  refine pass1_error_at hls (by omega) hnodup fun ls' labels' hs hnames => ?_
  exact pass1_duplicate hs (by omega) hl (hnames.mem_iff.mpr hbound) ls' line

/-- R81: a line after 64 accepted lines that bind no label twice. -/
theorem pass1_first_overflow {ls : List Text} {before rest : List (Text × Nat)}
    (hls : numberedFrom 1 ls = before ++ rest) (hlen : before.length = Config.imemWords) (hrest : rest ≠ [])
    (hnodup : (labelsOf before).Nodup) : pass1 ls 1 0 [] = .error .memoryOverflow := by
  obtain ⟨⟨l, line⟩, after, rfl⟩ := List.exists_cons_of_ne_nil hrest
  refine pass1_error_at hls (by omega) hnodup fun ls' labels' hs _ => ?_
  exact pass1_overflow hs (by omega) ls' line labels'

/-- R80, R81: pass 1 succeeds exactly where neither error is to be found. -/
theorem pass1_ok_iff (ls : List Text) :
    (∃ r, pass1 ls 1 0 [] = .ok r) ↔
      (numberedFrom 1 ls).length ≤ Config.imemWords ∧ (labelsOf (numberedFrom 1 ls)).Nodup := by
  constructor
  case mp =>
    rintro ⟨r, h⟩
    have hlen := pass1_length_le h (Nat.zero_le _)
    exact ⟨by omega, pass1_ok_nodup h List.nodup_nil⟩
  case mpr =>
    rintro ⟨hlen, hnodup⟩
    cases h : pass1 ls 1 0 [] with
    | ok r => exact ⟨r, rfl⟩
    | error e =>
      obtain ⟨-, hover⟩ | ⟨name, k, -, hcount⟩ := pass1_error h
      · omega
      · have hone := List.nodup_iff_count_le_one.mp hnodup name
        rw [List.map_nil, List.nil_append] at hcount
        omega

/-- Settles O47: success, the two failures at their first line, and what any error means. -/
theorem passOneFailsOnlyOnOverflowOrDuplicates : Obligations.PassOneFailsOnlyOnOverflowOrDuplicates := by
  intro ls
  refine ⟨pass1_ok_iff ls, fun before l line after name => pass1_first_duplicate,
    fun before rest => pass1_first_overflow, fun e h => ?_⟩
  obtain ⟨he, -⟩ | hduplicate := pass1_error h
  · exact .inl he
  · exact .inr hduplicate

/-! ## The whole program -/

/-- R82: pass 2 answers one word for each accepted line, in order. -/
theorem pass2_ok_forall₂ {labels : LabelTable} {accepted : List Accepted} {ws : List Word}
    (h : pass2 labels accepted = .ok ws) :
    List.Forall₂ (fun a w => enc a.tokens labels a.line = .ok w) accepted ws := by
  induction accepted generalizing ws with
  | nil =>
    cases h
    exact .nil
  | cons a accepted ih =>
    obtain ⟨w, ws', rfl, hw, hrest⟩ := pass2_cons_ok h
    exact .cons hw (ih hrest)

/-- Settles O37: what is assembled fits the object file, so its words are read back, and each one is ENC of its line;
the converse is the other half of `enc_eq_ok_iff`. -/
theorem assembledProgramsRoundTrip : Obligations.AssembledProgramsRoundTrip := by
  refine ⟨fun lines ws h => ?_, fun w labels label line hw hlabel => ?_⟩
  · obtain ⟨labels, accepted, hpass1, hpass2⟩ := assemble_ok h
    have hwords := pass2_ok_forall₂ hpass2
    obtain ⟨-, hbound⟩ := pass1_accepted_length hpass1
    rw [hwords.length_eq] at hbound
    refine ⟨readObject_writeObject hbound, labels, accepted, hpass1, hwords.imp fun a w hline => ?_⟩
    exact encodedLinesDecodeToTheirTokens _ _ _ _ hline
  · exact enc_eq_ok_iff.mpr ⟨hw, lineOf_recordTokens hlabel⟩

end Sys2Proof.Machine
end

section
/-! SUPPORT. The family of `40_alu.md`: the value and the flag that `add`, `and` and `not` write (R100 to R103), operands
that overlap (R104), and the arithmetic laws (R106). -/

namespace Sys2Proof.Machine

/-! ## The value written -/

theorem exec_add (rn rm rd : Reg) (s : State) :
    exec (.add rn rm rd) s = .next (aluDone s rd (readReg s rn + readReg s rm)) := rfl

theorem exec_and (rn rm rd : Reg) (s : State) :
    exec (.and rn rm rd) s = .next (aluDone s rd (readReg s rn &&& readReg s rm)) := rfl

theorem exec_not (rd rn : Reg) (s : State) :
    exec (.not rd rn) s = .next (aluDone s rd (~~~ readReg s rn)) := rfl

/-- An instruction has one next state, so where that ends in `aluDone` its value is in the destination. -/
theorem readReg_of_exec_aluDone {i : Instr} {rd : Reg} {v : Word} {s t : State}
    (hi : exec i s = .next (aluDone s rd v)) (h : exec i s = .next t) : readReg t rd = v := by
  obtain rfl : aluDone s rd v = t := Host.Outcome.next.inj (hi.symm.trans h)
  exact readReg_aluDone_same s rd v

/-- R100: the sum is that of the values before the instruction. -/
theorem readReg_of_exec_add {rn rm rd : Reg} {s t : State} (h : exec (.add rn rm rd) s = .next t) :
    readReg t rd = readReg s rn + readReg s rm :=
  readReg_of_exec_aluDone (exec_add rn rm rd s) h

/-- R101: the conjunction is that of the values before the instruction. -/
theorem readReg_of_exec_and {rn rm rd : Reg} {s t : State} (h : exec (.and rn rm rd) s = .next t) :
    readReg t rd = (readReg s rn &&& readReg s rm) :=
  readReg_of_exec_aluDone (exec_and rn rm rd s) h

/-- R102: the complement is that of the value before the instruction. -/
theorem readReg_of_exec_not {rd rn : Reg} {s t : State} (h : exec (.not rd rn) s = .next t) :
    readReg t rd = ~~~ readReg s rn :=
  readReg_of_exec_aluDone (exec_not rd rn s) h

/-- Every instruction completes, so what holds of any next state holds of the one there is. -/
theorem exec_next_with {i : Instr} {s : State} {P : State → Prop} (h : ∀ t, exec i s = .next t → P t) :
    ∃ t, exec i s = .next t ∧ P t := by
  obtain ⟨t, ht⟩ := exec_total i s
  exact ⟨t, ht, h t ht⟩

/-! ## The zero flag -/

/-- An instruction with a destination ends the way `aluDone` does. -/
theorem exec_eq_aluDone_of_destReg {i : Instr} {rd : Reg} {s t : State} (hi : destReg i = some rd)
    (h : exec i s = .next t) : ∃ v, t = aluDone s rd v := by
  obtain ⟨rd', v, hd, ht⟩ | ⟨a, rfl, -, -⟩ | ⟨a, rfl, -, -⟩ := exec_cases h
  · obtain rfl : rd' = rd := Option.some.inj (hd.symm.trans hi)
    exact ⟨v, ht⟩
  · cases hi
  · cases hi

/-- R103: `Z` is the flag of the value just written. -/
theorem exec_z_of_destReg {i : Instr} {rd : Reg} {s t : State} (hi : destReg i = some rd)
    (h : exec i s = .next t) : t.z = zeroFlag (readReg t rd) := by
  obtain ⟨v, rfl⟩ := exec_eq_aluDone_of_destReg hi h
  rw [aluDone_z, readReg_aluDone_same]

/-- Settles O17: `Z` is the zero flag of the destination, and only the number 0 has it set. -/
theorem zeroFlagFollowsTheValueWritten : Obligations.ZeroFlagFollowsTheValueWritten := by
  intro i rd s t hi h
  rw [exec_z_of_destReg hi h, zeroFlag_iff, BitVec.toNat_eq]
  rfl

/-! ## Overlapping operands -/

/-- Settles O18: the value written is given by the state before the instruction, whichever registers coincide. -/
theorem overlappingOperandsUseTheOldValue : Obligations.OverlappingOperandsUseTheOldValue := by
  intro r q s
  refine ⟨exec_next_with fun t h => ?addTwice, exec_next_with fun t h => ?addFirst,
    exec_next_with fun t h => ?addSecond, exec_next_with fun t h => ?andTwice,
    exec_next_with fun t h => readReg_of_exec_and h, exec_next_with fun t h => readReg_of_exec_and h,
    exec_next_with fun t h => ?notInPlace⟩
  case addTwice => rw [readReg_of_exec_add h, BitVec.toNat_add, Nat.two_mul]
  case addFirst => rw [readReg_of_exec_add h, BitVec.toNat_add]
  case addSecond => rw [readReg_of_exec_add h, BitVec.toNat_add]
  case andTwice => rw [readReg_of_exec_and h, BitVec.and_self]
  case notInPlace => rw [readReg_of_exec_not h, BitVec.toNat_not]

/-! ## The arithmetic laws -/

theorem exec_add_comm (rn rm rd : Reg) (s : State) : exec (.add rn rm rd) s = exec (.add rm rn rd) s := by
  rw [exec_add, exec_add, BitVec.add_comm]

theorem exec_and_comm (rn rm rd : Reg) (s : State) : exec (.and rn rm rd) s = exec (.and rm rn rd) s := by
  rw [exec_and, exec_and, BitVec.and_comm]

/-- The second `not` stands in place, so it takes the complement of what the first one wrote. -/
theorem readReg_of_exec_not_not {rn rd : Reg} {s t u : State} (hnot : exec (.not rd rn) s = .next t)
    (hagain : exec (.not rd rd) t = .next u) : readReg u rd = readReg s rn := by
  rw [readReg_of_exec_not hagain, readReg_of_exec_not hnot, BitVec.not_not]

/-- The source of the `not` is kept, so `add` meets a value and its complement. -/
theorem readReg_of_exec_not_add {rn rm rd : Reg} {s t u : State} (hne : rm ≠ rn)
    (hnot : exec (.not rm rn) s = .next t) (hadd : exec (.add rn rm rd) t = .next u) :
    readReg u rd = BitVec.allOnes 8 := by
  have hsource : readReg t rn = readReg s rn :=
    exec_readReg_of_ne_destReg hnot fun hdest => hne (Option.some.inj hdest)
  rw [readReg_of_exec_add hadd, readReg_of_exec_not hnot, hsource, BitVec.add_not_self]

/-- Adding `ra` and `rb`, then `rc`: the first sum is kept in `rd`, which is not `rc`. -/
theorem readReg_of_exec_add_left {ra rb rc rd : Reg} {s t u : State} (hc : rd ≠ rc)
    (hfirst : exec (.add ra rb rd) s = .next t) (hsecond : exec (.add rd rc rd) t = .next u) :
    readReg u rd = readReg s ra + readReg s rb + readReg s rc := by
  have hkept : readReg t rc = readReg s rc :=
    exec_readReg_of_ne_destReg hfirst fun hdest => hc (Option.some.inj hdest)
  rw [readReg_of_exec_add hsecond, readReg_of_exec_add hfirst, hkept]

/-- Settles O20: each law is that of the 8-bit values; for the grouping of two sums, the second way is the first one
with the sources swapped. -/
theorem arithmeticLawsOfTheInstructions : Obligations.ArithmeticLawsOfTheInstructions := by
  refine ⟨fun rn rm rd s => ⟨exec_add_comm rn rm rd s, exec_and_comm rn rm rd s⟩,
    fun rn rd s t u => readReg_of_exec_not_not, ?complement, ?grouping⟩
  case complement =>
    intro rn rm rd s t u hne hnot hadd
    have hall := readReg_of_exec_not_add hne hnot hadd
    refine ⟨by rw [hall]; rfl, ?_⟩
    rw [exec_z_of_destReg rfl hadd, hall]
    rfl
  case grouping =>
    intro ra rb rc rd s t u t' u' ha hc ht hu ht' hu'
    rw [exec_add_comm] at hu'
    rw [readReg_of_exec_add_left hc ht hu, readReg_of_exec_add_left ha ht' hu', BitVec.add_assoc, BitVec.add_comm]

end Sys2Proof.Machine
end

section
/-! SUPPORT. The family of `41_branch.md`: what `bnz` does in its two cases (R110, R111), the marker it sets (R114), and
targets inside and beyond the program (R113). -/

namespace Sys2Proof.Machine

/-! ## The two cases of `bnz` -/

/-- R110: with `Z` set, `bnz` falls through. -/
theorem exec_bnz_of_z {s : State} (hz : s.z = true) (addr : Addr) : exec (.bnz addr) s = .next (advance s) := by
  simp only [exec, execBnz, hz, if_true]

/-- R110: with `Z` clear, `bnz` jumps. -/
theorem exec_bnz_of_not_z {s : State} (hz : s.z = false) (addr : Addr) :
    exec (.bnz addr) s = .next (jump s addr) := by
  simp only [exec, execBnz, hz, Bool.false_eq_true, if_false]

/-- R15, D3: the address after the last one, 64, is still a number of 7 bits. -/
theorem advance_pc_toNat {s : State} (h : s.pc.toNat ≤ 63) : (advance s).pc.toNat = s.pc.toNat + 1 := by
  rw [advance_pc, BitVec.toNat_add_of_lt]
  · rfl
  · rw [show (1 : PcWord).toNat = 1 from rfl]
    omega

/-- R111: the target is absolute. -/
theorem jump_pc_toNat (s : State) (addr : Addr) : (jump s addr).pc.toNat = addr.toNat := setWidth_toNat addr

/-- R114: the 6 bits of the marker hold every address an instruction can stand at. -/
theorem marker_toNat {pc : PcWord} (h : pc.toNat ≤ 63) : (pc.setWidth 6 : Addr).toNat = pc.toNat := by
  rw [BitVec.toNat_setWidth]
  omega

/-- Settles O16: the two cases of `Z`, each with the frame of every instruction. -/
theorem bnzJumpsExactlyWhenZIsClear : Obligations.BnzJumpsExactlyWhenZIsClear := by
  intro addr s
  refine exec_next_with fun t h => ?_
  obtain ⟨himem, hlen⟩ := exec_keeps_program h
  have hframe : t.z = s.z ∧ (∀ r, readReg t r = readReg s r) ∧
      (∀ a, Memory.read t.imem a = Memory.read s.imem a) ∧ t.len = s.len :=
    ⟨exec_z_of_no_destReg h rfl, fun r => exec_readReg_of_ne_destReg h (Option.some_ne_none r).symm,
      fun a => by rw [himem], hlen⟩
  refine ⟨fun hz => ?fallThrough, fun hz => ?taken, hframe⟩
  case fallThrough =>
    obtain rfl : advance s = t := Host.Outcome.next.inj ((exec_bnz_of_z hz addr).symm.trans h)
    exact ⟨advance_bo s, advance_pc_toNat⟩
  case taken =>
    obtain rfl : jump s addr = t := Host.Outcome.next.inj ((exec_bnz_of_not_z hz addr).symm.trans h)
    exact ⟨jump_pc_toNat s addr, _, jump_bo s addr, marker_toNat⟩

/-! ## The marker after a step -/

/-- R114, D6: only a taken `bnz` leaves the marker set. -/
theorem exec_bo_some {i : Instr} {s t : State} (h : exec i s = .next t) {b : Addr} (hb : t.bo = some b) :
    ∃ addr, i = .bnz addr ∧ s.z = false ∧ t = jump s addr ∧ b = s.pc.setWidth 6 := by
  obtain ⟨rd, v, -, rfl⟩ | ⟨addr, -, -, rfl⟩ | ⟨addr, hi, hz, rfl⟩ := exec_cases h
  · cases hb
  · cases hb
  · exact ⟨addr, hi, hz, rfl, (Option.some.inj hb).symm⟩

/-- Settles O25: the step was a jump from an address below `LEN`, which the marker holds whole. -/
theorem markerNamesTheBranchJustTaken : Obligations.MarkerNamesTheBranchJustTaken := by
  rintro s t ⟨⟨-, hlen, -⟩, -⟩ hstep
  obtain ⟨w, hp, hw, hexec⟩ := step_next hstep
  have hmarker : (s.pc.setWidth 6 : Addr).toNat = s.pc.toNat := marker_toNat (Nat.le_of_lt_succ (hp.trans_le hlen))
  refine ⟨fun b hb => ?branch, fun b hb => ?address⟩
  case branch =>
    obtain ⟨addr, hi, hz, rfl, rfl⟩ := exec_bo_some hexec hb
    exact ⟨hz, w, addr, by rw [hmarker, jump_imem, hw], hi, jump_pc_toNat s addr⟩
  case address =>
    obtain ⟨addr, -, -, -, rfl⟩ := exec_bo_some hexec hb
    exact hmarker

/-! ## Targets beyond the program -/

/-- Settles O27: the branch is taken like any other, and the state after it is Halted by R21. -/
theorem branchBeyondTheProgramHalts : Obligations.BranchBeyondTheProgramHalts := by
  intro s w addr hp hw hi hz hbeyond
  have hstep : step s = .next (jump s addr) := by
    rw [step_of_fetch (fetch_of_read hp hw), hi, exec_bnz_of_not_z hz]
  have hpc : (jump s addr).pc.toNat = addr.toNat := jump_pc_toNat s addr
  have hout : (jump s addr).len ≤ (jump s addr).pc.toNat := by rwa [jump_len, hpc]
  exact ⟨_, hstep, hpc, (halted_iff _).mpr hout, step_of_halted hout⟩

/-! ## Targets of an assembled program -/

theorem targetBelow_iff (n : Nat) (i : Instr) :
    i.targetBelow n = true ↔ ∀ addr, i = .bnz addr → addr.toNat < n := by
  cases i <;> simp [Instr.targetBelow]

/-- R71: the target of an encoded `bnz` comes from the label table. -/
theorem lookupLabel_of_enc_bnz {tokens : List Text} {labels : LabelTable} {line : Nat} {w : Word} {addr : Addr}
    (h : enc tokens labels line = .ok w) (hw : decodeWord w = .bnz addr) :
    ∃ name, lookupLabel labels name = some addr := by
  obtain ⟨-, op, ops, -, -, hops⟩ := enc_eq_ok_iff.mp h
  have hrecord : (decRecord w).operands = [.target addr] := by rw [decRecord_eq_record, hw]; rfl
  rw [hrecord] at hops
  obtain ⟨t, -, hlabel, -, -⟩ := List.forall₂_cons_right_iff.mp hops
  exact ⟨lower t, hlabel⟩

/-- R80: a label is bound to the address of a line that there is. -/
theorem BindsLabelsOf.addr_lt {lines : List Text} {labels : LabelTable} (h : BindsLabelsOf lines labels) {name : Text}
    {addr : Addr} (hname : lookupLabel labels name = some addr) : addr.toNat < lines.length := by
  obtain ⟨hlt, -⟩ := List.getElem?_eq_some_iff.mp ((h.lookup_iff name addr).mp hname)
  rwa [List.length_map] at hlt

/-- R80, R113: every `bnz` that pass 2 answers goes to an accepted line. -/
theorem pass2_targets_lt {lines : List Text} {labels : LabelTable} (hbinds : BindsLabelsOf lines labels)
    {accepted : List Accepted} {ws : List Word} (h : pass2 labels accepted = .ok ws) {w : Word} (hmem : w ∈ ws)
    {addr : Addr} (hw : decodeWord w = .bnz addr) : addr.toNat < lines.length := by
  obtain ⟨k, hk, rfl⟩ := List.getElem_of_mem hmem
  have hwords := pass2_ok_forall₂ h
  have henc := hwords.get (hwords.length_eq.symm ▸ hk) hk
  obtain ⟨name, hname⟩ := lookupLabel_of_enc_bnz henc hw
  exact hbinds.addr_lt hname

/-- R82: one word for each accepted line. -/
theorem assemble_length {lines : List Text} {labels : LabelTable} {accepted : List Accepted} {ws : List Word}
    (hpass1 : pass1 lines 1 0 [] = .ok (labels, accepted)) (hpass2 : pass2 labels accepted = .ok ws) :
    ws.length = (acceptedLines lines).length := by
  obtain ⟨hlength, -⟩ := pass1_accepted_length hpass1
  calc ws.length
    _ = accepted.length := (pass2_ok_forall₂ hpass2).length_eq.symm
    _ = (numberedFrom 1 lines).length := hlength
    _ = (acceptedLines lines).length := by rw [← numberedFrom_fst 1 lines, List.length_map]

/-- Settles O48: pass 1 bounds the number of words, and binds labels to addresses below it. -/
theorem assembledProgramsAreWellFormed : Obligations.AssembledProgramsAreWellFormed := by
  intro lines ws h
  obtain ⟨labels, accepted, hpass1, hpass2⟩ := assemble_ok h
  have hlength := assemble_length hpass1 hpass2
  have hbinds : BindsLabelsOf (acceptedLines lines) labels :=
    pass1_bindsLabelsOf (before := []) hpass1 bindsLabelsOf_nil
  refine ⟨?_, hlength⟩
  rw [Program.wellFormed, Bool.and_eq_true]
  constructor
  case left =>
    obtain ⟨-, hbound⟩ := pass1_accepted_length hpass1
    rw [Program.fits, decide_eq_true_eq, List.length_map, ← (pass2_ok_forall₂ hpass2).length_eq]
    exact hbound
  case right =>
    rw [Program.targetsInside, List.all_eq_true, List.length_map, hlength]
    intro i hi
    obtain ⟨w, hmem, rfl⟩ := List.mem_map.mp hi
    exact (targetBelow_iff _ _).mpr fun addr hw => pass2_targets_lt hbinds hpass2 hmem hw

end Sys2Proof.Machine
end

section
/-! SUPPORT. The family of `42_fetch_execute_cycle.md`: the step (R120, R123), steps in sequence, the run loop against
them (R124 to R127), and the reports (R129, R130). -/

namespace Sys2Proof.Machine

/-! ## The step -/

/-- Settles O21: the fetch of a Running machine answers the word at `pc`, and `decode` consumes exactly that word. -/
theorem stepRunsTheDecodedInstruction : Obligations.StepRunsTheDecodedInstruction := by
  intro s w i hp hw hi
  have hdecode : decodeWord w = i := congrArg Prod.fst (Except.ok.inj hi)
  rw [step_of_fetch (fetch_of_read hp hw), hdecode]

/-- R15, R123, D6: an instruction at an address that exists moves on by one with the marker clear, or it is a `bnz` that
jumps and marks its own address. -/
theorem exec_advances_or_jumps {i : Instr} {s t : State} (hp : s.pc.toNat ≤ 63) (h : exec i s = .next t) :
    (t.pc.toNat = s.pc.toNat + 1 ∧ t.bo = none) ∨
      ∃ addr, i = .bnz addr ∧ s.z = false ∧ t.pc.toNat = addr.toNat ∧ t.bo.map BitVec.toNat = some s.pc.toNat := by
  obtain ⟨rd, v, -, rfl⟩ | ⟨addr, -, -, rfl⟩ | ⟨addr, hi, hz, rfl⟩ := exec_cases h
  · exact .inl ⟨advance_pc_toNat hp, aluDone_bo s rd v⟩
  · exact .inl ⟨advance_pc_toNat hp, advance_bo s⟩
  · exact .inr ⟨addr, hi, hz, jump_pc_toNat s addr, congrArg some (marker_toNat hp)⟩

/-- A step of a loaded machine executes the word at an address from 0 to 63 (R14, R34). -/
theorem step_next_of_loaded {s t : State} (hs : Loaded s) (h : step s = .next t) :
    ∃ w, s.pc.toNat ≤ 63 ∧ Memory.read s.imem s.pc.toNat = some w ∧ exec (decodeWord w) s = .next t := by
  obtain ⟨-, hlen, -⟩ := hs
  obtain ⟨w, hp, hw, hexec⟩ := step_next h
  exact ⟨w, Nat.le_of_lt_succ (hp.trans_le hlen), hw, hexec⟩

/-- Settles O24: where the step goes, then what it writes in the two cases of a destination. -/
theorem everyStepAdvancesOrTakesABranch : Obligations.EveryStepAdvancesOrTakesABranch := by
  rintro s t ⟨hloaded, -⟩ hstep
  obtain ⟨w, hp, hw, hexec⟩ := step_next_of_loaded hloaded hstep
  refine ⟨w, hw, exec_advances_or_jumps hp hexec, fun hnone => ?noDest, fun rd hrd => ?dest, exec_keeps_program hexec⟩
  case noDest =>
    refine ⟨exec_z_of_no_destReg hexec hnone, fun r => exec_readReg_of_ne_destReg hexec ?_⟩
    rw [hnone]
    exact (Option.some_ne_none r).symm
  case dest =>
    refine ⟨by rw [exec_z_of_destReg hrd hexec, zeroFlag_iff], fun r hne => exec_readReg_of_ne_destReg hexec ?_⟩
    rw [hrd]
    exact fun he => hne (Option.some.inj he).symm

/-- The program stays loaded, and `pc` goes to 64 at most, by one step up or to a 6-bit target (R14, R33). -/
theorem step_keeps_stateInv {s t : State} (hs : StateInv s) (h : step s = .next t) : StateInv t := by
  obtain ⟨hloaded, -⟩ := hs
  obtain ⟨w, hp, -, hexec⟩ := step_next_of_loaded hloaded h
  obtain ⟨himem, hlen⟩ := exec_keeps_program hexec
  refine ⟨by rwa [Loaded, himem, hlen], ?pc⟩
  case pc =>
    rw [Config.imemWords]
    obtain ⟨hpc, -⟩ | ⟨addr, -, -, hpc, -⟩ := exec_advances_or_jumps hp hexec
    · omega
    · have htarget := addr.isLt
      omega

/-! ## What the reporter recovers -/

theorem shownAddr_of_marker {t : State} {a : Nat} (h : t.bo.map BitVec.toNat = some a) : shownAddr t = a := by
  obtain ⟨b, hb, rfl⟩ := Option.map_eq_some_iff.mp h
  simp [shownAddr, hb]

theorem shownAddr_of_no_marker {t : State} (h : t.bo = none) : shownAddr t = t.pc.toNat - 1 := by
  simp [shownAddr, h]

/-- R130: the marker of a jump and `pc - 1` after any other step are both the address the step fetched from. -/
theorem shownAddr_of_step {s t : State} (hs : Loaded s) (h : step s = .next t) : shownAddr t = s.pc.toNat := by
  obtain ⟨w, hp, -, hexec⟩ := step_next_of_loaded hs h
  obtain ⟨hpc, hbo⟩ | ⟨addr, -, -, -, hbo⟩ := exec_advances_or_jumps hp hexec
  · rw [shownAddr_of_no_marker hbo, hpc, Nat.add_sub_cancel]
  · exact shownAddr_of_marker hbo

/-- R130: memory is the one the step fetched from, so the reporter shows the word that was executed. -/
theorem shownRecord_of_step {s t : State} (hs : Loaded s) (h : step s = .next t) :
    ∃ w, Memory.read s.imem s.pc.toNat = some w ∧ shownRecord t = some (decRecord w) := by
  obtain ⟨w, -, hw, hexec⟩ := step_next h
  obtain ⟨himem, -⟩ := exec_keeps_program hexec
  exact ⟨w, hw, by rw [shownRecord, himem, shownAddr_of_step hs h, hw, Option.map_some]⟩

/-! ## Steps in sequence -/

/-- One more step at the end. -/
theorem Steps.concat {n : Nat} {s t u : State} (h : Steps n s t) (hstep : step t = .next u) : Steps (n + 1) s u := by
  induction h with
  | zero s => exact .succ hstep (.zero u)
  | succ hfirst _ ih => exact .succ hfirst (ih hstep)

/-- The invariant holds in every state that steps reach. -/
theorem Steps.keeps_stateInv {n : Nat} {s t : State} (h : Steps n s t) (hs : StateInv s) : StateInv t := by
  induction h with
  | zero s => exact hs
  | succ hstep _ ih => exact ih (step_keeps_stateInv hs hstep)

/-- There is only one sequence of steps, so a state before its end has a next state. -/
theorem Steps.step_of_lt {n k : Nat} {s t u : State} (h : Steps n s u) (hk : k < n) (h' : Steps k s t) :
    ∃ v, step t = .next v := by
  induction h' generalizing n with
  | zero s =>
    cases h with
    | zero => exact absurd hk (Nat.lt_irrefl 0)
    | succ hstep _ => exact ⟨_, hstep⟩
  | succ hstep' _ ih =>
    cases h with
    | zero => exact absurd hk (Nat.not_lt_zero _)
    | succ hstep hrest =>
      obtain rfl := Host.Outcome.next.inj (hstep.symm.trans hstep')
      exact ih hrest (Nat.lt_of_succ_lt_succ hk)

theorem Steps.running_of_lt {n k : Nat} {s t u : State} (h : Steps n s u) (hk : k < n) (h' : Steps k s t) :
    t.halted = false := by
  obtain ⟨v, hv⟩ := h.step_of_lt hk h'
  exact running_of_step hv

/-- R125: no sequence of steps is longer than the one to a Halted state. -/
theorem Steps.le_of_halted {n T : Nat} {s t u : State} (h : Steps n s t) (hT : Steps T s u) (hu : u.halted = true) :
    n ≤ T := by
  by_contra hlt
  have hrunning : u.halted = false := h.running_of_lt (Nat.not_le.mp hlt) hT
  rw [hu] at hrunning
  cases hrunning

/-! ## The run against the steps -/

/-- R124, for any state: a run is the steps it counts, and it ends with the budget or where there is no step. -/
theorem runLoop_steps (disasm : Bool) (budget c : Nat) (s : State) :
    ∃ n, (runLoop disasm budget c s).cycles = c + n ∧ n ≤ budget ∧ Steps n s (runLoop disasm budget c s).final ∧
      (n = budget ∨ ∀ t, step (runLoop disasm budget c s).final ≠ .next t) := by
  induction budget generalizing c s with
  | zero => exact ⟨0, rfl, Nat.le_refl 0, .zero s, .inl rfl⟩
  | succ budget ih =>
    by_cases hnext : ∃ t, step s = .next t
    case pos =>
      obtain ⟨t, ht⟩ := hnext
      obtain ⟨n, hcycles, hle, hsteps, hend⟩ := ih (c + 1) t
      rw [runLoop_next disasm budget c ht]
      exact ⟨n + 1, by rw [hcycles, Nat.add_assoc, Nat.add_comm 1], Nat.succ_le_succ hle, .succ ht hsteps,
        hend.imp_left (congrArg (· + 1))⟩
    case neg =>
      have hstuck : ∀ t, step s ≠ .next t := not_exists.mp hnext
      rw [runLoop_stuck disasm (budget + 1) c hstuck]
      exact ⟨0, rfl, Nat.zero_le _, .zero s, .inr hstuck⟩

theorem runLoop_cycles_le (disasm : Bool) (budget : Nat) (s : State) :
    (runLoop disasm budget 0 s).cycles ≤ budget := by
  obtain ⟨n, hcycles, hle, -, -⟩ := runLoop_steps disasm budget 0 s
  rwa [hcycles, Nat.zero_add]

/-- R121: where the invariant holds, only a Halted machine has no step. -/
theorem halted_of_no_step {s : State} (hs : StateInv s) (h : ∀ t, step s ≠ .next t) : s.halted = true := by
  obtain ⟨hloaded, -⟩ := hs
  by_contra hrunning
  obtain ⟨t, ht⟩ := step_of_running hloaded ((not_halted_iff s).mp (Bool.eq_false_iff.mpr hrunning))
  exact h t ht

/-- Settles O28: the run's steps keep the invariant, under which a run that stops early stops at a Halted state. -/
theorem runIsTheStepsUpToBudgetOrHalt : Obligations.RunIsTheStepsUpToBudgetOrHalt := by
  intro disasm budget c s hs
  obtain ⟨n, hcycles, hle, hsteps, hend⟩ := runLoop_steps disasm budget c s
  have hinv : StateInv (runLoop disasm budget c s).final := hsteps.keeps_stateInv hs
  exact ⟨n, hcycles, hle, hsteps, hend.imp_right (halted_of_no_step hinv), fun k t => hsteps.running_of_lt, hinv⟩

/-- Settles O29: the run is never longer than the steps to the Halted state, and where it stops before its budget it is
not shorter either. -/
theorem runExecutesTheSmallerOfBudgetAndHaltTime : Obligations.RunExecutesTheSmallerOfBudgetAndHaltTime := by
  intro disasm budget T s u hT hu
  obtain ⟨n, hcycles, hle, hsteps, hend⟩ := runLoop_steps disasm budget 0 s
  have hleT : n ≤ T := hsteps.le_of_halted hT hu
  have hge : n = budget ∨ T ≤ n := hend.imp_right fun hstuck => by
    by_contra hlt
    obtain ⟨v, hv⟩ := hT.step_of_lt (Nat.not_le.mp hlt) hsteps
    exact hstuck v hv
  omega

/-- Settles O33: no words leave the machine Halted at reset, and a budget of 0 ends the loop at once. -/
theorem emptyRunsExecuteNothing : Obligations.EmptyRunsExecuteNothing :=
  ⟨fun disasm budget => runLoop_halted disasm budget 0 ((halted_iff State.reset).mpr (Nat.zero_le _)),
    fun disasm ws => runLoop_zero disasm 0 (State.loaded ws)⟩

/-! ## The reports of a run -/

theorem runLoop_reports_length (disasm : Bool) (budget c : Nat) (s : State) :
    c + (runLoop disasm budget c s).reports.length = (runLoop disasm budget c s).cycles := by
  induction budget generalizing c s with
  | zero => rfl
  | succ budget ih =>
    by_cases hnext : ∃ t, step s = .next t
    case pos =>
      obtain ⟨t, ht⟩ := hnext
      rw [runLoop_next disasm budget c ht, ← ih (c + 1) t, List.length_cons]
      omega
    case neg =>
      rw [runLoop_stuck disasm (budget + 1) c (not_exists.mp hnext)]
      rfl

/-- R129: report `k` of a run whose budget reaches it is that of the state after `k + 1` steps. -/
theorem runLoop_reports_getElem? (disasm : Bool) {budget k : Nat} (c : Nat) {s t : State} (hk : k < budget)
    (h : Steps (k + 1) s t) :
    (runLoop disasm budget c s).reports[k]? = some (report disasm (c + k + 1) t) := by
  induction budget generalizing k c s with
  | zero => exact absurd hk (Nat.not_lt_zero k)
  | succ budget ih =>
    cases h with
    | succ hstep hrest =>
      rw [runLoop_next disasm budget c hstep]
      cases k with
      | zero =>
        cases hrest
        rfl
      | succ k =>
        rw [List.getElem?_cons_succ, ih (c + 1) (Nat.lt_of_succ_lt_succ hk) hrest, Nat.add_right_comm c 1 k]
        rfl

/-- Settles O30: one report a cycle, and each is `report` of its number and its state, whose fields those are. -/
theorem reportsGiveTheStateAfterEachCycle : Obligations.ReportsGiveTheStateAfterEachCycle := by
  intro disasm budget s
  refine ⟨by rw [← runLoop_reports_length, Nat.zero_add], fun k t hk hsteps => ?_⟩
  have hreport := runLoop_reports_getElem? disasm 0 (hk.trans_le (runLoop_cycles_le disasm budget s)) hsteps
  exact ⟨_, hreport, by rw [report, Nat.zero_add], rfl, rfl, rfl⟩

/-- Settles O56: both runs report the state after the step from `u`, where the reporter recovers the word at `u`'s `pc`;
only the disassembling one shows it. -/
theorem reportsShowTheInstructionOfTheirCycle : Obligations.ReportsShowTheInstructionOfTheirCycle := by
  intro budget k s u t hk hsteps hstep
  have hbudget : k < budget := hk.trans_le (runLoop_cycles_le true budget s)
  have hafter : Steps (k + 1) s t := hsteps.concat hstep
  refine ⟨⟨_, runLoop_reports_getElem? true 0 hbudget hafter, rfl, fun hs => ?_⟩,
    _, runLoop_reports_getElem? false 0 hbudget hafter, rfl⟩
  obtain ⟨hloaded, -⟩ := hsteps.keeps_stateInv hs
  exact shownRecord_of_step hloaded hstep

end Sys2Proof.Machine
end

section
/-! SUPPORT. The family of `60_exceptions.md`: a load error gives nothing else (R143, R145), assembly's error is the
first one in order (R82, R145), and each component's errors are those of the taxonomy it raises (R142, R148). -/

namespace Sys2Proof.Machine

/-! ## The load -/

theorem loadFile_of_readFile_error {file : Option Text} {e : ToolError} (h : readFile file = .error e) :
    loadFile file = .error e := by
  rw [loadFile, h, Except.map]

theorem loadFile_of_readFile {file : Option Text} {ws : List Word} (h : readFile file = .ok ws) :
    loadFile file = .ok (State.loaded ws) := by
  rw [loadFile, h, Except.map]

/-- R143: on a load error no cycle is executed. -/
theorem runFile_of_readFile_error {file : Option Text} {e : ToolError} (h : readFile file = .error e) (disasm : Bool)
    (budget : Nat) : runFile disasm file budget = .error e := by
  rw [runFile, h, Except.map]

theorem runFile_of_readFile {file : Option Text} {ws : List Word} (h : readFile file = .ok ws) (disasm : Bool)
    (budget : Nat) : runFile disasm file budget = .ok (run disasm ws budget) := by
  rw [runFile, h, Except.map]

/-- Settles O34: the load and the run look at the file through the reader only. -/
theorem loadErrorsRunNothing : Obligations.LoadErrorsRunNothing := by
  refine ⟨readFile_none, readFile_some, fun disasm file budget => ⟨fun e h => ?_, fun ws h => ?_⟩⟩
  · exact ⟨loadFile_of_readFile_error h, runFile_of_readFile_error h disasm budget⟩
  · exact ⟨loadFile_of_readFile h, runFile_of_readFile h disasm budget⟩

/-! ## The order of assembly's errors -/

theorem pass2_cons_of_enc {labels : LabelTable} {a : Accepted} {w : Word} (h : enc a.tokens labels a.line = .ok w)
    (rest : List Accepted) : pass2 labels (a :: rest) = (pass2 labels rest).map (w :: ·) := by
  rw [pass2, h]
  rfl

theorem pass2_cons_of_enc_error {labels : LabelTable} {a : Accepted} {e : ToolError}
    (h : enc a.tokens labels a.line = .error e) (rest : List Accepted) : pass2 labels (a :: rest) = .error e := by
  rw [pass2, h]
  rfl

/-- R82: the first line that ENC refuses is the answer, whatever follows it. -/
theorem pass2_first_error {labels : LabelTable} {before : List Accepted} {a : Accepted} {e : ToolError}
    (hbefore : ∀ b ∈ before, ∃ w, enc b.tokens labels b.line = .ok w) (ha : enc a.tokens labels a.line = .error e)
    (after : List Accepted) : pass2 labels (before ++ a :: after) = .error e := by
  induction before with
  | nil => exact pass2_cons_of_enc_error ha after
  | cons b before ih =>
    obtain ⟨⟨w, hw⟩, hbefore⟩ := List.forall_mem_cons.mp hbefore
    rw [List.cons_append, pass2_cons_of_enc hw, ih hbefore, Except.map]

theorem pass2_of_enc {labels : LabelTable} {accepted : List Accepted}
    (h : ∀ a ∈ accepted, ∃ w, enc a.tokens labels a.line = .ok w) : ∃ ws, pass2 labels accepted = .ok ws := by
  induction accepted with
  | nil => exact ⟨[], pass2_nil labels⟩
  | cons a accepted ih =>
    obtain ⟨⟨w, hw⟩, hrest⟩ := List.forall_mem_cons.mp h
    obtain ⟨ws, hws⟩ := ih hrest
    exact ⟨w :: ws, by rw [pass2_cons_of_enc hw, hws, Except.map]⟩

/-- R85: pass 1 over all lines, and pass 2 on what it answers. -/
theorem assemble_eq_bind (lines : List Text) : assemble lines = (pass1 lines 1 0 []) >>= fun r => pass2 r.1 r.2 := by
  rw [assemble]
  cases pass1 lines 1 0 [] <;> rfl

/-- R145: of a source that is read, first the words, then the destination. -/
theorem assembleFile_some (canWrite : Bool) (lines : List Text) :
    assembleFile canWrite (some lines) =
      assemble lines >>= fun ws => if canWrite then .ok (writeObject ws) else .error .ioError := by
  simp only [assembleFile, openFile_some]
  cases assemble lines <;> rfl

theorem assembleFile_none (canWrite : Bool) : assembleFile canWrite none = .error .ioError := rfl

theorem assembleFile_of_assemble_error {lines : List Text} {e : ToolError} (h : assemble lines = .error e)
    (canWrite : Bool) : assembleFile canWrite (some lines) = .error e := by
  rw [assembleFile_some, h]
  rfl

theorem assembleFile_of_assemble {lines : List Text} {ws : List Word} (h : assemble lines = .ok ws) (canWrite : Bool) :
    assembleFile canWrite (some lines) = if canWrite then .ok (writeObject ws) else .error .ioError := by
  rw [assembleFile_some, h]
  rfl

/-- Settles O49: pass 1, then the first line that pass 2 refuses, then the destination. -/
theorem assemblyReportsTheFirstError : Obligations.AssemblyReportsTheFirstError := by
  refine ⟨assembleFile_none, fun lines canWrite => ⟨?pass1, ?pass2, ?words⟩⟩
  case pass1 =>
    intro e h
    refine assembleFile_of_assemble_error ?_ canWrite
    rw [assemble_eq_bind, h]
    rfl
  case pass2 =>
    intro labels before a after e h hbefore ha
    refine assembleFile_of_assemble_error ?_ canWrite
    rw [assemble_eq_bind, h]
    exact pass2_first_error hbefore ha after
  case words =>
    intro labels accepted h hwords
    obtain ⟨ws, hws⟩ := pass2_of_enc hwords
    have hassemble : assemble lines = .ok ws := by
      rw [assemble_eq_bind, h]
      exact hws
    have hfile := assembleFile_of_assemble hassemble canWrite
    cases canWrite with
    | true => exact ⟨ws, hfile, pass2_ok_forall₂ hws⟩
    | false => exact hfile

/-! ## The errors of assembly -/

theorem resolveRegs_error {line : Nat} {ops : List Text} {e : ToolError} (h : resolveRegs line ops = .error e) :
    ∃ t ∈ ops, e = .invalidRegister t line := by
  induction ops with
  | nil => cases h
  | cons t ops ih =>
    rw [resolveRegs, List.mapM_cons] at h
    obtain ht | ⟨r, -, h⟩ := bind_error h
    · obtain ⟨he, -⟩ := resolveReg_error ht
      exact ⟨t, List.mem_cons_self, he⟩
    obtain hrest | ⟨rs, -, h⟩ := bind_error h
    · obtain ⟨t', ht', he⟩ := ih hrest
      exact ⟨t', List.mem_cons_of_mem t ht', he⟩
    cases h

/-- With the right operand count, an error of operands that are no label is the registers' first error: the converse of
`resolveOperands_of_resolveRegs_error`. -/
theorem resolveRegs_of_resolveOperands_error {m : Mnemonic} (hm : m ≠ .bnz) {ops : List Text}
    (hlen : ops.length = arity m) {labels : LabelTable} {line : Nat} {e : ToolError}
    (h : resolveOperands m ops labels line = .error e) : resolveRegs line ops = .error e := by
  cases m with
  | bnz => exact absurd rfl hm
  | add | and =>
    obtain ⟨t1, t2, t3, rfl⟩ := List.length_eq_three.mp hlen
    simp only [resolveRegs, List.mapM_cons, List.mapM_nil, bind_assoc, pure_bind]
    exact bind_error_mono h fun _ h => bind_error_mono h fun _ h => bind_error_mono h fun _ h => by cases h
  | not =>
    obtain ⟨t1, t2, rfl⟩ := List.length_eq_two.mp hlen
    simp only [resolveRegs, List.mapM_cons, List.mapM_nil, bind_assoc, pure_bind]
    exact bind_error_mono h fun _ h => bind_error_mono h fun _ h => by cases h

/-- R69 to R71: the errors of a mnemonic's operands. -/
theorem resolveOperands_error {m : Mnemonic} {ops : List Text} {labels : LabelTable} {line : Nat} {e : ToolError}
    (h : resolveOperands m ops labels line = .error e) :
    e = .arityError m (arity m) ops.length line ∨
      ∃ t ∈ ops, e = .invalidRegister t line ∨ e = .undefinedLabel t line := by
  by_cases hlen : ops.length = arity m
  case neg =>
    rw [resolveOperands_of_length_ne hlen] at h
    exact .inl (Except.error.inj h).symm
  case pos =>
    right
    by_cases hm : m = .bnz
    case neg =>
      obtain ⟨t, ht, he⟩ := resolveRegs_error (resolveRegs_of_resolveOperands_error hm hlen h)
      exact ⟨t, ht, .inl he⟩
    case pos =>
      subst hm
      obtain ⟨t, rfl⟩ := List.length_eq_one_iff.mp hlen
      obtain ht | ⟨addr, -, h⟩ := bind_error h
      · obtain ⟨he, -⟩ := resolveLabel_error ht
        exact ⟨t, List.mem_singleton_self t, .inr he⟩
      · cases h

/-- R68 to R71: the errors of ENC, all of which carry the number of its line. -/
theorem enc_error {tokens : List Text} {labels : LabelTable} {line : Nat} {e : ToolError}
    (h : enc tokens labels line = .error e) :
    (∃ t, e = .unknownOpcode t line) ∨ (∃ m expected actual, e = .arityError m expected actual line) ∨
      ∃ t, e = .invalidRegister t line ∨ e = .undefinedLabel t line := by
  have hresolve := map_error h
  unfold resolve at hresolve
  split at hresolve
  · exact .inl ⟨_, (Except.error.inj hresolve).symm⟩
  · split at hresolve
    · exact .inl ⟨_, (Except.error.inj hresolve).symm⟩
    · obtain he | ⟨t, -, he⟩ := resolveOperands_error hresolve
      · exact .inr (.inl ⟨_, _, _, he⟩)
      · exact .inr (.inr ⟨t, he⟩)

/-- R82: an error of pass 2 is ENC's, on one of the accepted lines. -/
theorem pass2_error {labels : LabelTable} {accepted : List Accepted} {e : ToolError}
    (h : pass2 labels accepted = .error e) : ∃ a ∈ accepted, enc a.tokens labels a.line = .error e := by
  induction accepted with
  | nil => cases h
  | cons a accepted ih =>
    obtain ha | ⟨w, -, h⟩ := bind_error h
    · exact ⟨a, List.mem_cons_self, ha⟩
    obtain hrest | ⟨ws, -, h⟩ := bind_error h
    · obtain ⟨b, hb, he⟩ := ih hrest
      exact ⟨b, List.mem_cons_of_mem a hb, he⟩
    cases h

/-- R82: an error of assembly is one of pass 1, or ENC's on an accepted line. -/
theorem assemble_error {lines : List Text} {e : ToolError} (h : assemble lines = .error e) :
    pass1 lines 1 0 [] = .error e ∨
      ∃ labels accepted, pass1 lines 1 0 [] = .ok (labels, accepted) ∧
        ∃ a ∈ accepted, enc a.tokens labels a.line = .error e := by
  rw [assemble_eq_bind] at h
  obtain hpass1 | ⟨⟨labels, accepted⟩, hpass1, hpass2⟩ := bind_error h
  · exact .inl hpass1
  · exact .inr ⟨labels, accepted, hpass1, pass2_error hpass2⟩

/-- R145: an error of assembly to a file is `IOError` or one of the source's lines. -/
theorem assembleFile_error {canWrite : Bool} {source : Option (List Text)} {e : ToolError}
    (h : assembleFile canWrite source = .error e) :
    e = .ioError ∨ ∃ lines, source = some lines ∧ assemble lines = .error e := by
  cases source with
  | none => exact .inl (Except.error.inj h).symm
  | some lines =>
    rw [assembleFile_some] at h
    obtain hlines | ⟨ws, -, hwrite⟩ := bind_error h
    · exact .inr ⟨lines, rfl, hlines⟩
    · cases canWrite with
      | true => cases hwrite
      | false => exact .inl (Except.error.inj hwrite).symm

/-! ## The errors of the reader -/

theorem readBody_error {n : Nat} {ls : List Text} {e : ToolError} (h : readBody n ls = .error e) :
    e = .memoryOverflow ∨ ∃ l ∈ ls, e = .malformedWord l := by
  induction ls generalizing n with
  | nil => cases h
  | cons l ls ih =>
    rcases Nat.lt_or_ge n Config.imemWords with hn | hn
    case inr =>
      rw [readBody_overflow hn] at h
      exact .inl (Except.error.inj h).symm
    case inl =>
      cases hl : parseWord l with
      | none =>
        rw [readBody_malformed hn hl] at h
        exact .inr ⟨l, List.mem_cons_self, (Except.error.inj h).symm⟩
      | some w =>
        rw [readBody_good hn hl] at h
        obtain he | ⟨l', hl', he⟩ := ih (map_error h)
        · exact .inl he
        · exact .inr ⟨l', List.mem_cons_of_mem l hl', he⟩

/-- R45 to R47: the errors of the reader. -/
theorem readObject_error {file : Text} {e : ToolError} (h : readObject file = .error e) :
    (∃ l, e = .badHeader l) ∨ e = .memoryOverflow ∨ ∃ l, e = .malformedWord l := by
  cases hfile : cutLines file with
  | nil =>
    rw [readObject_no_line hfile] at h
    exact .inl ⟨[], (Except.error.inj h).symm⟩
  | cons l ls =>
    by_cases hl : l = objectHeader
    case neg =>
      rw [readObject_badHeader hfile hl] at h
      exact .inl ⟨l, (Except.error.inj h).symm⟩
    case pos =>
      subst hl
      rw [readObject_header hfile] at h
      obtain he | ⟨l, -, he⟩ := readBody_error h
      · exact .inr (.inl he)
      · exact .inr (.inr ⟨l, he⟩)

/-! ## `LexError` is none of them -/

theorem enc_ne_lexError (tokens : List Text) (labels : LabelTable) (line : Nat) :
    enc tokens labels line ≠ .error .lexError := by
  intro h
  obtain ⟨t, he⟩ | ⟨m, expected, actual, he⟩ | ⟨t, he | he⟩ := enc_error h <;> cases he

theorem pass1_ne_lexError (ls : List Text) (line next : Nat) (labels : LabelTable) :
    pass1 ls line next labels ≠ .error .lexError := by
  intro h
  obtain ⟨he, -⟩ | ⟨name, k, he, -⟩ := pass1_error h <;> cases he

theorem assemble_ne_lexError (lines : List Text) : assemble lines ≠ .error .lexError := by
  intro h
  obtain hpass1 | ⟨labels, accepted, -, a, -, henc⟩ := assemble_error h
  · exact pass1_ne_lexError lines 1 0 [] hpass1
  · exact enc_ne_lexError a.tokens labels a.line henc

theorem assembleFile_ne_lexError (canWrite : Bool) (source : Option (List Text)) :
    assembleFile canWrite source ≠ .error .lexError := by
  intro h
  obtain he | ⟨lines, -, hlines⟩ := assembleFile_error h
  · cases he
  · exact assemble_ne_lexError lines hlines

theorem readFile_ne_lexError (file : Option Text) : readFile file ≠ .error .lexError := by
  intro h
  cases file with
  | none => cases h
  | some text =>
    rw [readFile_some] at h
    obtain ⟨l, he⟩ | he | ⟨l, he⟩ := readObject_error h <;> cases he

/-- Settles O50: assembly's errors are those of its two passes, and a load or a run adds none to the reader's. -/
theorem nothingRaisesLexError : Obligations.NothingRaisesLexError := by
  refine ⟨assemble_ne_lexError, assembleFile_ne_lexError, fun file => ⟨readFile_ne_lexError file, fun h => ?_⟩,
    fun disasm file budget h => ?_⟩
  · exact readFile_ne_lexError file (map_error h)
  · exact readFile_ne_lexError file (map_error h)

end Sys2Proof.Machine
end

section
/-! SUPPORT. What is left of `30_encoding.md`, the instruction word: what the decoder drops (R60, R63), DECX (R61), and
the sample words of `95_test_vectors.md` section 2.1. -/

namespace Sys2Proof

open Sys2Proof.Machine

/-! ## The unused field of `not` -/

/-- R52, R63, D5: the opcode field alone makes a word a `not`, and only f1 and f2 are read further. -/
theorem decodeWord_of_op_not {w : Word} (h : (unpack w).op = opcodeCode .not) :
    decodeWord w = .not (regOf (unpack w).f1) (regOf (unpack w).f2) := by
  simp [decodeWord, h]

/-- Settles O7: the fields of a `not` word that its instruction is read from do not include f3. -/
theorem notIgnoresItsUnusedField : Obligations.NotIgnoresItsUnusedField := by
  intro rd rn f3
  have hop : (unpack (pack ⟨opcodeCode .not, regCode rd, regCode rn, f3⟩)).op = opcodeCode .not := by rw [unpack_pack]
  rw [decodeWord_of_op_not hop, unpack_pack, regOf_regCode, regOf_regCode]

/-- The AND of two words is taken field by field. -/
theorem pack_and_pack (f g : Fields) :
    pack f &&& pack g = pack ⟨f.op &&& g.op, f.f1 &&& g.f1, f.f2 &&& g.f2, f.f3 &&& g.f3⟩ := by
  simp only [pack, ← BitVec.and_append]

/-- The mask of the three upper fields clears f3 and keeps the others. -/
theorem and_mask_eq_pack (w : Word) : w &&& 0xFC#8 = pack ⟨(unpack w).op, (unpack w).f1, (unpack w).f2, 0b00#2⟩ := by
  have hkeep (x : Field) : x &&& 0b11#2 = x := BitVec.and_allOnes
  have hmask : 0xFC#8 = pack ⟨0b11#2, 0b11#2, 0b11#2, 0b00#2⟩ := rfl
  calc w &&& 0xFC#8
    _ = pack (unpack w) &&& pack ⟨0b11#2, 0b11#2, 0b11#2, 0b00#2⟩ := by rw [pack_unpack, hmask]
    _ = pack ⟨(unpack w).op, (unpack w).f1, (unpack w).f2, 0b00#2⟩ := by
      simp only [pack_and_pack, BitVec.and_zero, hkeep]

theorem isNotWithF3_eq_true_iff (w : Word) :
    isNotWithF3 w = true ↔ (unpack w).op = opcodeCode .not ∧ (unpack w).f3 ≠ 0 :=
  decide_eq_true_iff

/-- R63: f3 of a `not` is not in the instruction, so the encoder writes it `00`. -/
theorem encodeWord_decodeWord_of_isNotWithF3 {w : Word} (h : isNotWithF3 w = true) :
    encodeWord (decodeWord w) = w &&& 0xFC#8 := by
  obtain ⟨hop, -⟩ := (isNotWithF3_eq_true_iff w).mp h
  rw [decodeWord_of_op_not hop, encodeWord, regCode_regOf, regCode_regOf, and_mask_eq_pack, hop]

/-- R50: the decoder consumes exactly one word. -/
theorem decode_eq_ok_iff {ws : List Word} {i : Instr} {rest : List Word} :
    decode ws = .ok (i, rest) ↔ ∃ w, ws = w :: rest ∧ decodeWord w = i := by
  cases ws with
  | nil => simp [decode]
  | cons w ws => simp [decode, and_comm]

/-- Settles O6: the two cases of a word that was read, one of the 48 or not. -/
theorem encodeOfDecodeDropsOnlyTheUnusedField : Obligations.EncodeOfDecodeDropsOnlyTheUnusedField := by
  intro ws i rest h
  obtain ⟨w, rfl, rfl⟩ := decode_eq_ok_iff.mp h
  refine ⟨w, rfl, ?_⟩
  rw [encode]
  cases hw : isNotWithF3 w with
  | true => rw [encodeWord_decodeWord_of_isNotWithF3 hw, if_pos rfl]
  | false => rw [encodeWord_decodeWord hw, if_neg Bool.false_ne_true]

/-! ## DECX and the sample words -/

/-- R55, R57: the lower six bits of a word are its three lower fields together. -/
theorem unpack_target (w : Word) : (unpack w).target = w.extractLsb' 0 6 := by
  apply BitVec.eq_of_toNat_eq
  rw [target_toNat, unpack_f1_toNat, unpack_f2_toNat, unpack_f3_toNat, BitVec.extractLsb'_toNat,
    Nat.shiftRight_zero]
  omega

/-- R61: DECX gives the control outputs of the instruction that the engine runs. -/
theorem decControl_eq_control (w : Word) : decControl w = (decodeWord w).control := by
  simp only [decControl, decodeWord]
  cases mnemonicOf (unpack w).op with
  | add | and | not => simp only [Instr.control, regCode_regOf]
  | bnz => rw [Instr.control, unpack_target]

/-- Settles O8, for DEC and for DECX. -/
theorem recordAndControlAgreeWithTheInstruction : Obligations.RecordAndControlAgreeWithTheInstruction :=
  fun w => ⟨decRecord_eq_record w, decControl_eq_control w⟩

/-- Settles O9: four of the words are the encodings of their instructions, and the fifth is a `not` with f3 = 11. -/
theorem sampleWordsDecode : Obligations.SampleWordsDecode :=
  ⟨decodeOfEncodeIsTheInstruction (.add .r0 .r1 .r2) [], decodeOfEncodeIsTheInstruction (.and .r2 .r3 .r0) [],
    decodeOfEncodeIsTheInstruction (.not .r1 .r0) [],
    decode_eq_ok_iff.mpr ⟨_, rfl, notIgnoresItsUnusedField .r1 .r0 0b11#2⟩,
    decodeOfEncodeIsTheInstruction (.bnz 36#6) []⟩

end Sys2Proof
end

section
/-! SUPPORT. What is left of the machine: reset (R23, R170), the arithmetic instructions whole, with their frame (R100 to
R102), the invariant and the reporter over a step (R14, R130), and the branch to itself (R110). -/

namespace Sys2Proof.Machine

/-! ## Reset -/

/-- Settles O10: with no program loaded, address 0 is already at `LEN`. -/
theorem resetValues : Obligations.ResetValues := by
  refine ⟨rfl, fun r => ?registers, rfl, rfl, rfl, (halted_iff State.reset).mpr (Nat.le_refl 0)⟩
  case registers => cases r <;> rfl

/-- Settles O11: reset is the load of no words. -/
theorem resetMeetsTheInvariant : Obligations.ResetMeetsTheInvariant :=
  stateInv_loaded (ws := []) (Nat.zero_le _)

/-! ## The arithmetic instructions -/

/-- R15: 7 bits hold the address after every `pc` up to 64. -/
theorem pc_add_one_toNat {pc : PcWord} (h : pc.toNat ≤ 64) : (pc + 1).toNat = pc.toNat + 1 := by
  bv_omega

/-- R105, D6: how an instruction with a destination ends, but for the value and the flag. -/
theorem exec_frame_of_destReg {i : Instr} {rd : Reg} {s t : State} (hi : destReg i = some rd)
    (h : exec i s = .next t) :
    t.bo = none ∧ (s.pc.toNat ≤ 64 → t.pc.toNat = s.pc.toNat + 1) ∧ (∀ r, r ≠ rd → readReg t r = readReg s r) ∧
      (∀ a, Memory.read t.imem a = Memory.read s.imem a) ∧ t.len = s.len := by
  obtain ⟨v, rfl⟩ := exec_eq_aluDone_of_destReg hi h
  exact ⟨aluDone_bo s rd v, pc_add_one_toNat, fun r => readReg_aluDone_other s v, fun a => by rw [aluDone_imem],
    aluDone_len s rd v⟩

/-- Settles O13: the number of the 8-bit sum, and `Z` by R103. -/
theorem addWritesTheSumModulo256 : Obligations.AddWritesTheSumModulo256 := by
  intro rn rm rd s
  refine exec_next_with fun t h => ?_
  have hvalue : (readReg t rd).toNat = ((readReg s rn).toNat + (readReg s rm).toNat) % 256 := by
    rw [readReg_of_exec_add h, BitVec.toNat_add]
  have hflag := zeroFlagFollowsTheValueWritten _ rd s t rfl h
  exact ⟨hvalue, by rw [hflag, hvalue], exec_frame_of_destReg rfl h⟩

/-- Settles O14: the bits of the 8-bit conjunction, and `Z` by R103. -/
theorem andWritesTheBitwiseAnd : Obligations.AndWritesTheBitwiseAnd := by
  intro rn rm rd s
  refine exec_next_with fun t h => ?_
  have hbits (k : Nat) : (readReg t rd).getLsbD k = ((readReg s rn).getLsbD k && (readReg s rm).getLsbD k) := by
    rw [readReg_of_exec_and h, BitVec.getLsbD_and]
  exact ⟨hbits, zeroFlagFollowsTheValueWritten _ rd s t rfl h, exec_frame_of_destReg rfl h⟩

/-- Settles O15: the number of the 8-bit complement, which is 0 only for 255, and `Z` by R103. -/
theorem notWritesTheComplement : Obligations.NotWritesTheComplement := by
  intro rd rn s
  refine exec_next_with fun t h => ?_
  have hvalue : (readReg t rd).toNat = 255 - (readReg s rn).toNat := by
    rw [readReg_of_exec_not h, BitVec.toNat_not]
  have hflag := zeroFlagFollowsTheValueWritten _ rd s t rfl h
  have hbound := (readReg s rn).isLt
  exact ⟨hvalue, by rw [hflag, hvalue]; omega, exec_frame_of_destReg rfl h⟩

/-! ## The step -/

/-- Settles O23: the program stays loaded, and `pc` goes up from 63 at most or to a 6-bit target. -/
theorem stepKeepsTheInvariant : Obligations.StepKeepsTheInvariant :=
  fun _ _ => step_keeps_stateInv

/-- Settles O26: the reporter recovers the address, and memory holds one word there. -/
theorem reporterRecoversTheExecutedInstruction : Obligations.ReporterRecoversTheExecutedInstruction := by
  rintro s t w ⟨hloaded, -⟩ hstep hw
  obtain ⟨w', hw', hshown⟩ := shownRecord_of_step hloaded hstep
  obtain rfl : w = w' := Option.some.inj (hw.symm.trans hw')
  exact ⟨shownAddr_of_step hloaded hstep, hshown⟩

/-! ## The branch to itself -/

/-- R110: a jump to the address it stands at changes the marker only. -/
theorem jump_to_pc {s : State} {addr : Addr} (h : addr.toNat = s.pc.toNat) :
    jump s addr = { s with bo := some addr } := by
  have hpc : addr.setWidth 7 = s.pc := BitVec.eq_of_toNat_eq ((setWidth_toNat addr).trans h)
  have hmarker : s.pc.setWidth 6 = addr := by
    rw [← hpc, BitVec.setWidth_setWidth_of_le addr (by decide), BitVec.setWidth_eq]
  rw [jump, hpc, hmarker]

/-- R18: where a step changes the marker only, the next step is the same again. -/
theorem steps_of_step_setMarker {s : State} {b : Option Addr} (h : step s = .next { s with bo := b }) (n : Nat) :
    Steps (n + 1) s { s with bo := b } := by
  induction n with
  | zero => exact .succ h (.zero _)
  | succ n ih => exact ih.concat ((step_setMarker s b).trans h)

/-- R124: a run uses up every budget for which there are steps. -/
theorem runLoop_cycles_of_steps (disasm : Bool) {budget : Nat} {s u : State} (h : Steps budget s u) :
    (runLoop disasm budget 0 s).cycles = budget := by
  obtain ⟨n, hcycles, hle, hsteps, hend⟩ := runLoop_steps disasm budget 0 s
  have hge : budget ≤ n := by
    by_contra hlt
    obtain ⟨v, hv⟩ := h.step_of_lt (Nat.not_le.mp hlt) hsteps
    exact (hend.resolve_left fun hn => hlt hn.ge) v hv
  omega

/-- Settles O31: the step is a jump to its own address, which repeats. -/
theorem branchToItselfRepeatsUntilTheBudgetEnds : Obligations.BranchToItselfRepeatsUntilTheBudgetEnds := by
  intro s w addr _ hp hw hi htarget hz
  have hstep : step s = .next { s with bo := some addr } := by
    rw [step_of_fetch (fetch_of_read hp hw), hi, exec_bnz_of_not_z hz, jump_to_pc htarget]
  refine ⟨steps_of_step_setMarker hstep, fun disasm budget => ?_⟩
  cases budget with
  | zero => rfl
  | succ n => exact runLoop_cycles_of_steps disasm (steps_of_step_setMarker hstep n)

end Sys2Proof.Machine
end
